-- ==== Sys2Proof/Word.lean ====
section
/-!
DEFINITION. The word types of the pilight pulse codec (spec/00_scope.md R10) and the indices of its register arrays.
-/

namespace Sys2Proof

/-- One host-visible register word, `WORD_W = 32` bits (R10, R62). -/
abbrev Word := BitVec 32

/-- One pulse-length code, `CODE_W = 8` bits (R10, R22). -/
abbrev Code := BitVec 8

/-- One field value, `VAL_W = 32` bits, unsigned (R10, R25). -/
abbrev Val := BitVec 32

/-- The bit vector, `BIT_MAX = 32` bits; bit `i` belongs to pair `i` (R10, R13, R24). -/
abbrev BitsVec := BitVec 32

/-- A length register, `LEN_W = 7` bits (R10). -/
abbrev Len := BitVec 7

/-- A bit-vector position or length in the descriptor, 6 bits (spec/10_state.md R33, R42, R44). -/
abbrev Pos := BitVec 6

/-- The timing unit, `TU_W = 16` bits (R10, R31). -/
abbrev TimeUnit := BitVec 16

/-- A slot duration, `CODE_W + TU_W = 24` bits (R16, R50). -/
abbrev Duration := BitVec 24

/-- Index of a slot of the raw buffer, `RAW_MAX = 64` (R10). -/
abbrev SlotIx := Fin 64

/-- Index of a field-layout entry, `NF_MAX = 4` (R10). -/
abbrev FieldIx := Fin 4

/-- Index of an enumeration-table entry, `NE_MAX = 8` (R10). -/
abbrev EntryIx := Fin 8

/-- The raw buffer `RAW[0..63]` (R21). -/
abbrev RawBuf := Vector Code 64

end Sys2Proof
end

