-- ==== Sys2Proof/Config.lean ====
section
/-!
DEFINITION. The implementation parameters of spec/00_scope.md R10 at the spec's values, and the free values: what the
spec leaves unspecified (spec/93_implementation_defined.md U1 to U3). A free value has no body, so no proof can know it.
-/

namespace Sys2Proof.Config

/-- Slots of the raw buffer (R10). -/
abbrev rawMax : Nat := 64

/-- Bits of the bit vector, `RAW_MAX / 2` (R10). -/
abbrev bitMax : Nat := 32

/-- Bits of a field value (R10). -/
abbrev valW : Nat := 32

/-- Field-layout entries (R10). -/
abbrev nfMax : Nat := 4

/-- Enumeration-table entries (R10). -/
abbrev neMax : Nat := 8

/-- Size of the register space in bytes (spec/20_memory.md R61). -/
abbrev spaceBytes : Nat := 0x400

/-- FREE VALUE (log 2). The contents that the spec calls unspecified (U1 after a later reset, U2, U3). Each unspecified
register takes the value at a counter of its own (`State.draws`), so no two of them are tied together. -/
opaque freeWord : Nat → BitVec 32

/-- FREE VALUE (log 7). The bit a stage reads at an index that the 32-bit vector it is given does not have. Only a stage
executed alone under a descriptor that fails the check of R48 can ask for it; no command does. -/
opaque absentBit : BitVec 32 → Nat → Bool

/-- FREE VALUE (log 7). The bit a stage reads at an index that the 32-bit `PATTERN` of a table entry does not have, apart
from `absentBit`, so that nothing says whether the two agree. Only a stage executed alone can ask for it; no command does. -/
opaque absentPatternBit : BitVec 32 → Nat → Bool

/-- FREE VALUE (log 7). What INTERPRET_NUM answers for a field wider than `VAL_W` bits, as a function of the exact sum:
spec/41_field_mapper.md R151 states the stored value only where the check of R48 holds. Only a stage executed alone can
ask for it; no command does. -/
opaque oversizeSum : Nat → BitVec 32

end Sys2Proof.Config
end

