-- ==== Sys2Proof/Syntax.lean ====
section
/-!
DEFINITION. The instructions: one constructor for every row of spec/opcode_table.json. Four are command words
(spec/30_encoding.md R91 to R93); thirteen are stages, which have no encoding (R94) and whose operands are therefore
the values the wiring of a command hands them.
-/

namespace Sys2Proof

/-- What VALIDATE finds out about the enumerated fields and hands to BUILD: the arrays `nomatch[f]` (here `unmatched`) and `entry[f]` of
spec/43_validator.md R200. `entry[f]` is `none` where the validator assigns no entry. -/
structure Matches where
  unmatched : Vector Bool 4
  entry : Vector (Option EntryIx) 4
  deriving DecidableEq, Repr

/-- The instructions of spec/opcode_table.json. -/
inductive Instr where
  /-- NOP, `CW = 0` (spec/44_commands.md R220). -/
  | nop
  /-- DECODE, `CW = 1` (R221). -/
  | decode
  /-- ENCODE, `CW = 2` (R222). -/
  | encode
  /-- RESERVED, every other command word (R93, R224); the word is kept. -/
  | reserved (w : Word)
  /-- EXTRACT (spec/40_slot_sampler.md R130). -/
  | extract
  /-- SAMPLE of the pair `(m, sp)`: mark code and space code (R131). -/
  | sample (m sp : Code)
  /-- INTERPRET of a bit vector (spec/41_field_mapper.md R150). -/
  | interpret (b : BitsVec)
  /-- INTERPRET_NUM.NATURAL of field `f` (R151). -/
  | interpretNumNatural (b : BitsVec) (f : FieldIx)
  /-- INTERPRET_NUM.REVERSED of field `f` (R153). -/
  | interpretNumReversed (b : BitsVec) (f : FieldIx)
  /-- INTERPRET_ENUM of field `f` (R155). -/
  | interpretEnum (b : BitsVec) (f : FieldIx)
  /-- INTERPRET_STATE (R158). -/
  | interpretState (b : BitsVec)
  /-- RENDER of field `f`; `e` is the table entry the validator found, if any (R159). -/
  | render (f : FieldIx) (e : Option EntryIx)
  /-- RENDER_NUM of value `v` for field `f` (R160). -/
  | renderNum (f : FieldIx) (v : Val)
  /-- RENDER_ENUM of entry `e` for field `f` (R161). -/
  | renderEnum (f : FieldIx) (e : EntryIx)
  /-- VALIDATE (spec/43_validator.md R200). -/
  | validate
  /-- BUILD with the validator's results (spec/42_frame_builder.md R181). -/
  | build (m : Matches)
  /-- SCALE of slot `i` (R190). -/
  | scale (i : SlotIx)
  deriving DecidableEq, Repr

namespace Instr

/-- The rows of format CW: what a host write to `CMD` can start (R92, R94). -/
def isCommand : Instr → Bool
  | nop | decode | encode | reserved _ => true
  | extract | sample .. | interpret _ | interpretNumNatural .. | interpretNumReversed .. | interpretEnum ..
  | interpretState _ | render .. | renderNum .. | renderEnum .. | validate | build _ | scale _ => false

/-- How many 32-bit words the row's encoding has: one command length (R91), none for a stage (R94). -/
def wordCount (i : Instr) : Nat := if i.isCommand then 1 else 0

end Instr
end Sys2Proof
end

