-- ==== Sys2Proof/WellFormed.lean ====
section
/-!
DEFINITION. Which terms of `Instr` stand for an instruction of the spec. The indices of fields, entries and slots are
bounded by their types; two checks remain.
-/

namespace Sys2Proof

/-- Bits 31:2 of a command word, which must be 0 (spec/30_encoding.md R91). -/
def rsvField (w : Word) : BitVec 30 := w.extractLsb' 2 30

/-- Bits 1:0 of a command word, the operation (R91). -/
def opField (w : Word) : BitVec 2 := w.extractLsb' 0 2

/-- A reserved command word: `OP = 3`, or any of bits 31:2 set (R93). -/
def isReservedWord (w : Word) : Bool := opField w == 3 || rsvField w != 0

/-- The validator never reports a field both unmatched and matched with an entry (spec/43_validator.md R200, rule 4). -/
def Matches.consistent (m : Matches) : Bool :=
  ([0, 1, 2, 3] : List FieldIx).all fun f => !(m.unmatched[f] && m.entry[f].isSome)

/-- The checks: the word of a RESERVED is a reserved word, and the operands of a BUILD are a possible outcome of the
validator. Every other term is well formed as it stands. -/
def Instr.wellFormed : Instr → Bool
  | .reserved w => isReservedWord w
  | .build m => m.consistent
  | .nop | .decode | .encode | .extract | .sample .. | .interpret _ | .interpretNumNatural ..
  | .interpretNumReversed .. | .interpretEnum .. | .interpretState _ | .render .. | .renderNum .. | .renderEnum ..
  | .validate | .scale _ => true

end Sys2Proof
end

