-- ==== Sys2Proof/Decode.lean ====
section
/-!
DEFINITION. The decoder of command words (spec/30_encoding.md R91 to R93) and the encoder. A command word is one 32-bit
register word; the block has no byte order (spec/20_memory.md R65), so the words are the machine's own.
-/

namespace Sys2Proof

/-- Why a sequence of words is no command. -/
inductive DecodeRefusal where
  /-- There is no word to read. Safe: nothing is decoded. -/
  | noWord
  deriving DecidableEq, Repr

/-- The instruction one command word starts: the opcode map of R92, and RESERVED for every word with `OP = 3` or a
reserved bit set (R93). Total: every 32-bit word has a meaning. -/
def decodeWord (w : Word) : Instr :=
  if rsvField w = 0 then
    if opField w = 0 then .nop
    else if opField w = 1 then .decode
    else if opField w = 2 then .encode
    else .reserved w
  else .reserved w

/-- The decoder over a sequence of words: one command is one word (R91), the rest is returned. -/
def decode : List Word → Except DecodeRefusal (Instr × List Word)
  | [] => .error .noWord
  | w :: rest => .ok (decodeWord w, rest)

/-- The words of an instruction (R92, R93); a stage has none (R94). -/
def encode : Instr → List Word
  | .nop => [0x00000000#32]
  | .decode => [0x00000001#32]
  | .encode => [0x00000002#32]
  | .reserved w => [w]
  | .extract | .sample .. | .interpret _ | .interpretNumNatural .. | .interpretNumReversed .. | .interpretEnum ..
  | .interpretState _ | .render .. | .renderNum .. | .renderEnum .. | .validate | .build _ | .scale _ => []

/-- The instruction the decoder reads from a table row's bits: bit 0 is the least significant bit of the one command
word; the bits above `nbits` are 0. A row wider than one word is no command of this block. -/
def decodeTableWord (nbits w : Nat) : Option Instr :=
  if nbits ≤ 32 then
    match decode [BitVec.ofNat 32 (w % 2 ^ nbits)] with
    | .ok (i, []) => some i
    | .ok (_, _ :: _) => none
    | .error _ => none
  else none

end Sys2Proof
end

