-- ==== Sys2Proof/Machine/State.lean ====
section
/-!
DEFINITION. The state of the block (spec/10_state.md R20), the host's side of a run (spec/70_reset_and_hazards.md R279),
the reasons a step can stop, and the state after reset (R53).
-/

namespace Sys2Proof.Machine

/-- A pair of codes, the layout of every pair register: mark in bits 7:0, space in bits 15:8 (R38). -/
structure Pair where
  m : Code
  s : Code
  deriving DecidableEq, Repr

/-- `D.ORDER` (R36): 0 Natural, 1 Reversed. -/
inductive BitOrder where
  | natural
  | reversed
  deriving DecidableEq, Repr

/-- `D.HALF` (R36): which slot of a pair the sampler reads; 0 the first (mark), 1 the second (space). -/
inductive Half where
  | first
  | second
  deriving DecidableEq, Repr

/-- `D.NOMATCH_SCOPE` (R12, R36): how much an unmatched enumerated value suppresses; 0 FIELD, 1 FRAME. -/
inductive NomatchScope where
  | field
  | frame
  deriving DecidableEq, Repr

/-- `D.MODE` (R36). -/
structure Mode where
  order : BitOrder
  half : Half
  strictEnum : Bool
  nomatchScope : NomatchScope
  deriving DecidableEq, Repr

/-- `D.F[f].CTL.KIND` (R44): 0 NUMERIC, 1 ENUM. -/
inductive FieldKind where
  | numeric
  | enum
  deriving DecidableEq, Repr

/-- One entry of the field layout, `D.F[f]` (R44, R45). -/
structure FieldEntry where
  en : Bool
  kind : FieldKind
  req : Bool
  start : Pos
  stop : Pos
  name : BitVec 8
  min : Val
  max : Val
  deriving DecidableEq, Repr

/-- One entry of the enumeration table, `D.E[e]` (R46). -/
structure EnumEntry where
  valid : Bool
  field : FieldIx
  value : Val
  pattern : BitsVec
  deriving DecidableEq, Repr

/-- `D.STATE`, the state segment (R42). -/
structure StateSeg where
  en : Bool
  w2 : Bool
  pos : Pos
  deriving DecidableEq, Repr

/-- The ProtocolDescriptor registers `D.*` (R30 to R46). -/
structure Descriptor where
  rawlen : Len
  bitlen : Pos
  tu : TimeUnit
  pulse : Code
  category : BitVec 8
  mode : Mode
  sentinel : Code
  hdr : Pair
  ftr : Pair
  low : Pair
  high : Pair
  stateSeg : StateSeg
  sa : Vector Pair 2
  sb : Vector Pair 2
  f : Vector FieldEntry 4
  e : Vector EnumEntry 8
  deriving DecidableEq, Repr

/-- `CMDF` (R26): the present bits and the two state flags. The other bits do not exist: they read 0. -/
structure CmdFlags where
  present : BitVec 4
  sa : Bool
  sb : Bool
  deriving DecidableEq, Repr

/-- The result codes that are ever produced (spec/60_exceptions.md R241). -/
inductive ResultCode where
  | none
  | ok
  | invalidFrameLength
  | incompleteCommand
  | fieldOutOfRange
  | ambiguousState
  | unknownEnumeratedValue
  | badDescriptor
  | badCommand
  deriving DecidableEq, Repr

/-- The values of `STATUS.ERRFIELD` that are ever produced (R27, R241): a field, the state (0xE), no field (0xF). -/
inductive ErrField where
  | field (f : FieldIx)
  | state
  | noField
  deriving DecidableEq, Repr

/-- The stored bits of `STATUS` (R27); `CFG_OK` and `LOCK` are views. -/
structure Status where
  result : ResultCode
  errField : ErrField
  wEnum : Bool
  outValid : Bool
  deriving DecidableEq, Repr

/-- What a `raise E(info)` carries (R244). -/
structure Raise where
  code : ResultCode
  field : ErrField
  deriving DecidableEq, Repr

/-- What INTERPRET produces (spec/41_field_mapper.md R150). -/
structure Interpreted where
  val : Vector Val 4
  present : BitVec 4
  sa : Bool
  sb : Bool
  wEnum : Bool
  deriving DecidableEq, Repr

/-- What VALIDATE produces when it does not raise (spec/43_validator.md R200). -/
structure Validated where
  found : Matches
  wEnum : Bool
  deriving DecidableEq, Repr

/-- MODEL's own (log 6): the transient result of a stage executed alone. -/
inductive StageOut where
  /-- No stage has been executed alone. -/
  | none
  /-- SAMPLE. -/
  | bit (b : Bool)
  /-- EXTRACT. -/
  | bits (b : BitsVec)
  /-- INTERPRET. -/
  | command (c : Interpreted)
  /-- INTERPRET_NUM in either order. -/
  | value (v : Val)
  /-- INTERPRET_ENUM: the value of the entry hit, or no hit. -/
  | enumHit (v : Option Val)
  /-- INTERPRET_STATE: the flags `(sa, sb)`. -/
  | stateFlags (sa sb : Bool)
  /-- RENDER, RENDER_NUM, RENDER_ENUM: the indices to be set high. -/
  | indices (l : List Nat)
  /-- VALIDATE. -/
  | validated (v : Validated)
  /-- SCALE. -/
  | duration (t : Duration)
  /-- A stage that raised. -/
  | raised (r : Raise)
  deriving DecidableEq, Repr

/-- The width of a host access. Only a whole word is inside the specification (spec/20_memory.md R62, R67). -/
inductive AccessWidth where
  | byte
  | halfword
  | word
  | doubleword
  deriving DecidableEq, Repr

/-- One thing the host does to the block (R60, R62, R270). Offsets are relative to the base of the block (R63). -/
inductive HostEvent where
  /-- `RegRead(a)`. -/
  | regRead (width : AccessWidth) (a : Nat)
  /-- `RegWrite(a, v)`. -/
  | regWrite (width : AccessWidth) (a : Nat) (v : Word)
  /-- The reset input is asserted (R270). -/
  | assertReset
  deriving DecidableEq, Repr

/-- The state. The first eight fields are the block's (R20); the last four are the MODEL's own. -/
structure State where
  /-- `RAW[0..63]` (R21). -/
  raw : RawBuf
  /-- `RXLEN` (R23). -/
  rxlen : Len
  /-- `BITS` (R24). -/
  bits : BitsVec
  /-- `FVAL[0..3]` (R25). -/
  fval : Vector Val 4
  /-- `CMDF` (R26). -/
  cmdf : CmdFlags
  /-- `STATUS`, its stored bits (R27). -/
  status : Status
  /-- `CTRL.LOCK` (R47). -/
  lock : Bool
  /-- `D.*` (R30). -/
  d : Descriptor
  /-- MODEL's own (log 3): the host events still to come, the next one first. -/
  host : List HostEvent
  /-- MODEL's own (log 3): the values the host's reads returned, oldest first. -/
  reads : List Word
  /-- MODEL's own (log 2): how many free values have been taken. -/
  draws : Nat
  /-- MODEL's own (log 6): the transient result of the last stage executed alone. -/
  stageOut : StageOut
  deriving DecidableEq, Repr

/-- The block never faults: every error is a result code in `STATUS` and the machine goes on (spec/60_exceptions.md
R240, R251), so this type has no constructor. -/
inductive Fault where
  deriving DecidableEq, Repr

/-- Why a step has no meaning. -/
inductive Refusal where
  /-- An instruction without a meaning, by its mnemonic. Raised by no arm of `exec`: every row is modelled. Safe. -/
  | notModelled (mnemonic : String)
  /-- A host access of a byte, halfword or doubleword (spec/20_memory.md R67, U8: outside the specification, a model
  refuses it). Raised by the host access check. Safe. -/
  | notOneWord (width : AccessWidth)
  /-- A host access at an offset that is no multiple of 4 (R67, U8). Raised by the host access check. Safe. -/
  | misaligned (a : Nat)
  /-- A host access at or above 0x400 (R62, U8). Raised by the host access check. Safe. -/
  | outsideSpace (a : Nat)
  deriving DecidableEq, Repr

/-- A pair register at 0. -/
def zeroPair : Pair := { m := 0, s := 0 }

/-- A field-layout entry at 0: disabled, NUMERIC (R44). -/
def zeroField : FieldEntry :=
  { en := false, kind := .numeric, req := false, start := 0, stop := 0, name := 0, min := 0, max := 0 }

/-- A table entry at 0: not valid (R46). -/
def zeroEntry : EnumEntry := { valid := false, field := 0, value := 0, pattern := 0 }

/-- Every `D.*` register at 0, as after reset (R53). -/
def zeroDescriptor : Descriptor :=
  { rawlen := 0, bitlen := 0, tu := 0, pulse := 0, category := 0
    mode := { order := .natural, half := .first, strictEnum := false, nomatchScope := .field }
    sentinel := 0, hdr := zeroPair, ftr := zeroPair, low := zeroPair, high := zeroPair
    stateSeg := { en := false, w2 := false, pos := 0 }
    sa := Vector.replicate 2 zeroPair, sb := Vector.replicate 2 zeroPair
    f := Vector.replicate 4 zeroField, e := Vector.replicate 8 zeroEntry }

/-- `STATUS` after reset: NONE, no field, no flag (R53). -/
def resetStatus : Status := { result := .none, errField := .noField, wEnum := false, outValid := false }

/-- `CMDF` after reset (R53). -/
def resetCmdf : CmdFlags := { present := 0, sa := false, sb := false }

/-- The machine right after reset (R53). The spec leaves `RAW`, `BITS` and `FVAL` unspecified there (U1): the model
names 0 for this one state (DESIGN CHOICE, unsafe, log 1). The model's own fields are empty (logs 2, 3, 6). -/
def State.reset : State :=
  { raw := Vector.replicate 64 0, rxlen := 0, bits := 0, fval := Vector.replicate 4 0, cmdf := resetCmdf
    status := resetStatus, lock := false, d := zeroDescriptor, host := [], reads := [], draws := 0, stageOut := .none }

end Sys2Proof.Machine
end

