-- ==== Sys2Proof/Machine/Operands.lean ====
section
/-!
DEFINITION. The operand forms of the stages: bit indices, field widths, minimal lengths, sampled slots, table look-ups
(spec/00_scope.md R13, R14). All arithmetic is exact and unsigned (R16).
-/

namespace Sys2Proof.Machine

/-- The layout entries in layout order (spec/10_state.md R44). -/
def allFields : List FieldIx := [0, 1, 2, 3]

/-- The table entries in index order (R46). -/
def allEntries : List EntryIx := [0, 1, 2, 3, 4, 5, 6, 7]

/-- `width(f) = END - START + 1` (R14). -/
def fieldWidth (x : FieldEntry) : Nat := x.stop.toNat + 1 - x.start.toNat

/-- `bitlen(v)`: bits of the minimal binary form; `bitlen(0) = 0` (R14). -/
def bitlen (v : Val) : Nat := if v.toNat = 0 then 0 else Nat.log2 v.toNat + 1

/-- `SW`, the number of pairs of the state segment (R42). -/
def stateWidth (x : StateSeg) : Nat := if x.w2 then 2 else 1

/-- Bit `i` of a 32-bit vector. An index of 32 or more names no bit: a free value (log 7). DESIGN CHOICE (log 7): the
vector of the rules ends at `D.BITLEN`; a stage executed alone that reaches an index from there to 31 reads the bit its
32-bit operand has there. -/
def bitAt (b : BitsVec) (i : Nat) : Bool := if i < 32 then b.getLsbD i else Config.absentBit b i

/-- Pattern bit `j` of a table entry (spec/10_state.md R46). DESIGN CHOICE (log 7): a field wider than 32 bits, which fails
the check of R48, has places for which `PATTERN` has no bit; a stage executed alone that asks for one reads a free value. -/
def patternBit (pattern : BitsVec) (j : Nat) : Bool :=
  if j < 32 then pattern.getLsbD j else Config.absentPatternBit pattern j

/-- The value register's word for a sum of weighted bits of a field: the sum itself, which fits a field of at most `VAL_W`
bits (R16, spec/41_field_mapper.md R151). A field wider than that fails the check of R48 and no rule states its value: a
free value (log 7). -/
def fieldValue (x : FieldEntry) (sum : Nat) : Val :=
  if fieldWidth x ≤ Config.valW then BitVec.ofNat 32 sum else Config.oversizeSum sum

/-- The slot of a pair that the sampler reads (R36, R131). -/
def sampledSlot (h : Half) (p : Pair) : Code :=
  match h with
  | .first => p.m
  | .second => p.s

/-- Pair `i` of the raw buffer, slots `2i` and `2i+1` (R13, spec/30_encoding.md R100). -/
def rawPair (raw : RawBuf) (i : Fin 32) : Pair := { m := raw[2 * i.val], s := raw[2 * i.val + 1] }

/-- The first valid table entry of field `f` whose VALUE is `v`, in index order (spec/43_validator.md R206). -/
def entryByValue (d : Descriptor) (f : FieldIx) (v : Val) : Option EntryIx :=
  allEntries.find? fun e => d.e[e].valid && d.e[e].field == f && d.e[e].value == v

/-- Whether the low `w` pattern bits are the vector's bits `s .. s + w - 1` (spec/41_field_mapper.md R155).
DESIGN CHOICE (log 7): where the width is above 32 no rule says whether the places from 32 on match; both sides read free
values there, which nothing ties to each other, so that the outcome of the comparison is free where bits 0 to 31 agree. -/
def patternMatches (pattern b : BitsVec) (s w : Nat) : Bool :=
  (List.range w).all fun j => patternBit pattern j == bitAt b (s + j)

/-- The first valid table entry of field `f` whose pattern stands in the vector, in index order (R155). -/
def entryByPattern (d : Descriptor) (f : FieldIx) (b : BitsVec) : Option EntryIx :=
  allEntries.find? fun e =>
    d.e[e].valid && d.e[e].field == f &&
      patternMatches d.e[e].pattern b d.f[f].start.toNat (fieldWidth d.f[f])

end Sys2Proof.Machine
end

