-- ==== Sys2Proof/Machine/Flags.lean ====
section
/-!
DEFINITION. `STATUS` and what is computed for it: the numeric codes, the descriptor check `CFG_OK`, the register word.
-/

namespace Sys2Proof.Machine

/-- The numeric result codes (spec/60_exceptions.md R241). -/
def ResultCode.code : ResultCode → BitVec 4
  | .none => 0
  | .ok => 1
  | .invalidFrameLength => 2
  | .incompleteCommand => 3
  | .fieldOutOfRange => 4
  | .ambiguousState => 5
  | .unknownEnumeratedValue => 6
  | .badDescriptor => 7
  | .badCommand => 8

/-- The values of `STATUS.ERRFIELD` (spec/10_state.md R27, R241). -/
def ErrField.code : ErrField → BitVec 4
  | .field f => BitVec.ofNat 4 f.val
  | .state => 0xE
  | .noField => 0xF

/-- Condition (a) of R48: `RAWLEN` is even and between 4 and `RAW_MAX`. -/
def cfgRawlen (d : Descriptor) : Bool :=
  d.rawlen.toNat % 2 == 0 && decide (4 ≤ d.rawlen.toNat) && decide (d.rawlen.toNat ≤ Config.rawMax)

/-- Condition (b) of R48: `BITLEN <= RAWLEN / 2`. -/
def cfgBitlen (d : Descriptor) : Bool := decide (d.bitlen.toNat ≤ d.rawlen.toNat / 2)

/-- Condition (c) of R48 for one enabled layout entry. `MIN` and `MAX` are compared for a NUMERIC field only: R45, R206 and
spec/93_implementation_defined.md U12 have every rule ignore them for an ENUM field (DEDUCED, log 14). -/
def cfgField (d : Descriptor) (x : FieldEntry) : Bool :=
  decide (x.start.toNat ≤ x.stop.toNat) && decide (x.stop.toNat < d.bitlen.toNat) &&
    decide (fieldWidth x ≤ Config.valW) && (x.kind == .enum || decide (x.min.toNat ≤ x.max.toNat))

/-- Condition (d) of R48: an enabled state segment lies inside the bit vector. -/
def cfgState (d : Descriptor) : Bool :=
  !d.stateSeg.en || decide (d.stateSeg.pos.toNat + stateWidth d.stateSeg ≤ d.bitlen.toNat)

/-- Condition (e) of R48 for one table entry; `FIELD < NF_MAX` holds by its type. -/
def cfgEntry (d : Descriptor) (x : EnumEntry) : Bool :=
  !x.valid || (d.f[x.field].en && d.f[x.field].kind == .enum)

/-- The descriptor check `STATUS.CFG_OK` (R48). -/
def cfgOk (d : Descriptor) : Bool :=
  cfgRawlen d && cfgBitlen d && (allFields.all fun f => !d.f[f].en || cfgField d d.f[f]) && cfgState d &&
    (allEntries.all fun e => cfgEntry d d.e[e])

/-- The word a read of `STATUS` returns (R27): the stored bits, `CFG_OK` in bit 10, `LOCK` in bit 11. -/
def statusWord (s : State) : Word :=
  0#20 ++ BitVec.ofBool s.lock ++ BitVec.ofBool (cfgOk s.d) ++ BitVec.ofBool s.status.outValid ++
    BitVec.ofBool s.status.wEnum ++ s.status.errField.code ++ s.status.result.code

end Sys2Proof.Machine
end

