-- ==== Sys2Proof/Machine/Ops.lean ====
section
/-!
DEFINITION. The shared operations on the state: writes into the raw buffer, the error entry, the successful end of a
command, unspecified contents, the reset input.
-/

namespace Sys2Proof.Machine

/-- `RAW[i] <- c`. A slot outside the buffer does not exist and takes no write; under `CFG_OK` no command asks for one
(spec/20_memory.md R69; log 7). -/
def setSlot (raw : RawBuf) (i : Nat) (c : Code) : RawBuf := raw.setIfInBounds i c

/-- Writes the pair `p` at pair position `b`: slots `2b` and `2b+1`, mark then space (R69, spec/30_encoding.md R100). -/
def setPair (raw : RawBuf) (b : Nat) (p : Pair) : RawBuf := setSlot (setSlot raw (2 * b) p.m) (2 * b + 1) p.s

/-- `raise E(info)`, the error entry and the whole of it (spec/60_exceptions.md R244, R251): no pc, no mode, no handler.
There is no return from it (R252). -/
def raise (r : Raise) (s : State) : State :=
  { s with status := { result := r.code, errField := r.field, wEnum := false, outValid := false } }

/-- The `STATUS` of a command that succeeds (spec/44_commands.md R221, R222). -/
def succeed (wEnum : Bool) (s : State) : State :=
  { s with status := { result := .ok, errField := .noField, wEnum := wEnum, outValid := true } }

/-- `BITS` becomes unspecified: a free value (spec/10_state.md R24, U3; log 2). -/
def unspecifyBits (s : State) : State := { s with bits := Config.freeWord s.draws, draws := s.draws + 1 }

/-- `CMDF` from a word: bits 3:0, 8 and 9; the others do not exist (R26). -/
def cmdfOfWord (v : Word) : CmdFlags := { present := v.extractLsb' 0 4, sa := v.getLsbD 8, sb := v.getLsbD 9 }

/-- A raw buffer of unspecified contents: one free value for each slot, counted from `n` (U1; logs 2 and 4). -/
@[irreducible] def freeRaw (n : Nat) : RawBuf := Vector.ofFn fun i => (Config.freeWord (n + i.val)).setWidth 8

/-- Field values of unspecified contents: one free value for each, counted from `n` (U1, U2; logs 2 and 4). -/
@[irreducible] def freeFval (n : Nat) : Vector Val 4 := Vector.ofFn fun f => Config.freeWord (n + f.val)

/-- `BITS`, `FVAL` and `CMDF` become unspecified, as after a failed DECODE: free values (spec/44_commands.md R228, U2;
logs 2 and 12). -/
def unspecifyCommand (s : State) : State :=
  { s with
    bits := Config.freeWord s.draws
    fval := freeFval (s.draws + 1)
    cmdf := cmdfOfWord (Config.freeWord (s.draws + 5))
    draws := s.draws + 6 }

/-- The reset input (R53, spec/70_reset_and_hazards.md R270): control, status and descriptor registers at the reset
values; `RAW`, `BITS` and `FVAL` unspecified, so free values (U1; log 4). The host's side of the run goes on. -/
def resetInput (s : State) : State :=
  { s with
    raw := freeRaw s.draws
    rxlen := 0
    bits := Config.freeWord (s.draws + 64)
    fval := freeFval (s.draws + 65)
    cmdf := resetCmdf
    status := resetStatus
    lock := false
    d := zeroDescriptor
    draws := s.draws + 69
    stageOut := .none }

/-- The transient result of a stage executed alone (log 6). -/
def yieldStage (o : StageOut) (s : State) : State := { s with stageOut := o }

/-- A stage executed alone that raises: `STATUS` as R244 says, and the raise as its result (log 6). -/
def raiseStage (r : Raise) (s : State) : State := yieldStage (.raised r) (raise r s)

end Sys2Proof.Machine
end

