-- ==== Sys2Proof/Machine/Sampler.lean ====
section
/-!
DEFINITION. The slot sampler (spec/40_slot_sampler.md): SAMPLE and EXTRACT.
-/

namespace Sys2Proof.Machine

/-- SAMPLE, the verdict on one pair (R131): equality of the sampled slot with the sentinel. -/
def sample (d : Descriptor) (p : Pair) : Bool := sampledSlot d.mode.half p == d.sentinel

/-- The bit vector of a raw buffer (R130): bit `i` is the sample of pair `i` for `i < BITLEN`, the bits above are 0
(spec/44_commands.md R221).
DESIGN CHOICE (log 7): where `BITLEN` is above `RAWLEN / 2`, which fails the check of R48, R130's pseudocode samples pairs at
and above `RAWLEN` while its operand list and R132 name `RAW[0 .. RAWLEN-1]` only; EXTRACT executed alone follows the
pseudocode and samples what `RAW` holds there. -/
def sampleBits (d : Descriptor) (raw : RawBuf) : BitsVec :=
  BitVec.ofFnLE fun i : Fin 32 => decide (i.val < d.bitlen.toNat) && sample d (rawPair raw i)

/-- EXTRACT (R130): the length check, before any slot is read, then the samples. -/
def extract (s : State) : Except Raise BitsVec :=
  if s.rxlen = s.d.rawlen then .ok (sampleBits s.d s.raw)
  else .error { code := .invalidFrameLength, field := .noField }

/-- The stage SAMPLE (R131). -/
def execSample (m sp : Code) (s : State) : Host.Outcome State Fault Refusal :=
  .next (yieldStage (.bit (sample s.d { m := m, s := sp })) s)

/-- The stage EXTRACT (R130, R132): no register changes unless it raises. DESIGN CHOICE (log 7): executed alone it yields a
vector of 32 bits whatever `BITLEN` is, and samples the slots at and above `RAWLEN` where `BITLEN` is above `RAWLEN / 2`. -/
def execExtract (s : State) : Host.Outcome State Fault Refusal :=
  match extract s with
  | .ok b => .next (yieldStage (.bits b) s)
  | .error r => .next (raiseStage r s)

end Sys2Proof.Machine
end

