-- ==== Sys2Proof/Machine/Mapper.lean ====
section
/-!
DEFINITION. The field mapper (spec/41_field_mapper.md): INTERPRET and its parts, RENDER and its parts.
-/

namespace Sys2Proof.Machine

/-- INTERPRET_NUM under Natural order (R151): the sum over `i` in `START .. END` of `bits[i] * 2^(END - i)`. A field wider
than 32 bits, for which R151 states no stored value, has a free value (log 7). -/
def interpretNumNatural (x : FieldEntry) (b : BitsVec) : Val :=
  fieldValue x (((List.range (fieldWidth x)).map fun k =>
    (bitAt b (x.start.toNat + k)).toNat * 2 ^ (x.stop.toNat - (x.start.toNat + k))).sum)

/-- INTERPRET_NUM under Reversed order (R153): the sum over `i` in `START .. END` of `bits[i] * 2^(i - START)`. A field
wider than 32 bits has a free value (log 7). -/
def interpretNumReversed (x : FieldEntry) (b : BitsVec) : Val :=
  fieldValue x (((List.range (fieldWidth x)).map fun k => (bitAt b (x.start.toNat + k)).toNat * 2 ^ k).sum)

/-- INTERPRET_NUM: the order is `D.ORDER` and nothing else (R152). -/
def interpretNum (d : Descriptor) (x : FieldEntry) (b : BitsVec) : Val :=
  match d.mode.order with
  | .natural => interpretNumNatural x b
  | .reversed => interpretNumReversed x b

/-- INTERPRET_ENUM (R155): the VALUE of the first entry whose pattern stands in the field, or no hit. -/
def interpretEnum (d : Descriptor) (f : FieldIx) (b : BitsVec) : Option Val :=
  (entryByPattern d f b).map fun e => d.e[e].value

/-- Whether the sampled bits of a state pattern stand at the state's position (R158). -/
def stateMatches (d : Descriptor) (p : Vector Pair 2) (b : BitsVec) : Bool :=
  bitAt b d.stateSeg.pos.toNat == sample d p[0] &&
    (!d.stateSeg.w2 || bitAt b (d.stateSeg.pos.toNat + 1) == sample d p[1])

/-- INTERPRET_STATE (R158): state A is tested first, then B, else NONE. The result is `(sa, sb)`. -/
def interpretState (d : Descriptor) (b : BitsVec) : Bool × Bool :=
  if stateMatches d d.sa b then (true, false)
  else if stateMatches d d.sb b then (false, true)
  else (false, false)

/-- What INTERPRET reports of one field (R150): its value when it is present, nothing when it is absent. -/
def interpretField (d : Descriptor) (b : BitsVec) (f : FieldIx) : Option Val :=
  if d.f[f].en then
    match d.f[f].kind with
    | .numeric => some (interpretNum d d.f[f] b)
    | .enum => interpretEnum d f b
  else none

/-- INTERPRET (R150): an absent field has value 0; the warning is an enabled ENUM field without a hit. -/
def interpret (d : Descriptor) (b : BitsVec) : Interpreted :=
  { val := Vector.ofFn fun f => (interpretField d b f).getD 0
    present := BitVec.ofFnLE fun f => (interpretField d b f).isSome
    sa := d.stateSeg.en && (interpretState d b).1
    sb := d.stateSeg.en && (interpretState d b).2
    wEnum := allFields.any fun f => d.f[f].en && d.f[f].kind == .enum && (interpretEnum d f b).isNone }

/-- RENDER_NUM (R160): the indices of the 1 bits of the minimal run, from `START` up under Reversed order, from `END`
down under Natural order. An index below 0 does not exist; the validator's `bitlen(v) <= width(f)` excludes it. -/
def renderNum (d : Descriptor) (x : FieldEntry) (v : Val) : List Nat :=
  match d.mode.order with
  | .reversed => ((List.range (bitlen v)).filter fun k => v.getLsbD k).map fun k => x.start.toNat + k
  | .natural =>
    ((List.range (bitlen v)).filter fun k => v.getLsbD k && decide (k ≤ x.stop.toNat)).map fun k => x.stop.toNat - k

/-- RENDER_ENUM (R161): `START + j` for the 1 bits `j < width(f)` of the entry's pattern. Executed alone on a field wider
than 32 bits it reads free values for the bits `PATTERN` does not have (`patternBit`; DESIGN CHOICE, log 7). -/
def renderEnum (d : Descriptor) (x : FieldEntry) (e : EntryIx) : List Nat :=
  ((List.range (fieldWidth x)).filter fun j => patternBit d.e[e].pattern j).map fun j => x.start.toNat + j

/-- RENDER of one field (R159). An ENUM field for which the validator found no entry contributes no index (R161). -/
def render (d : Descriptor) (fval : Vector Val 4) (f : FieldIx) (e : Option EntryIx) : List Nat :=
  match d.f[f].kind with
  | .numeric => renderNum d d.f[f] fval[f]
  | .enum =>
    match e with
    | some e => renderEnum d d.f[f] e
    | none => []

/-- The stage INTERPRET (R150). Executed alone under a descriptor that fails its check it can reach bits the rule's vector
does not have: `bitAt` says what it reads there (DESIGN CHOICE, log 7). -/
def execInterpret (b : BitsVec) (s : State) : Host.Outcome State Fault Refusal :=
  .next (yieldStage (.command (interpret s.d b)) s)

/-- The stage INTERPRET_NUM.NATURAL (R151). DESIGN CHOICE (log 6): executed alone it computes R151's sum whatever `D.ORDER`
and the field's KIND and EN are; the rule gives it under `D.ORDER = 0` for a NUMERIC field. -/
def execInterpretNumNatural (b : BitsVec) (f : FieldIx) (s : State) : Host.Outcome State Fault Refusal :=
  .next (yieldStage (.value (interpretNumNatural s.d.f[f] b)) s)

/-- The stage INTERPRET_NUM.REVERSED (R153). DESIGN CHOICE (log 6): executed alone it computes R153's sum whatever
`D.ORDER` and the field's KIND and EN are; the rule gives it under `D.ORDER = 1` for a NUMERIC field. -/
def execInterpretNumReversed (b : BitsVec) (f : FieldIx) (s : State) : Host.Outcome State Fault Refusal :=
  .next (yieldStage (.value (interpretNumReversed s.d.f[f] b)) s)

/-- The stage INTERPRET_ENUM (R155); executed alone, on a field of either KIND (DESIGN CHOICE, log 6) and of any width
(`patternMatches` says what a width above 32 compares; DESIGN CHOICE, log 7). -/
def execInterpretEnum (b : BitsVec) (f : FieldIx) (s : State) : Host.Outcome State Fault Refusal :=
  .next (yieldStage (.enumHit (interpretEnum s.d f b)) s)

/-- The stage INTERPRET_STATE (R158); executed alone, whatever `D.STATE.EN` is (DESIGN CHOICE, log 6). -/
def execInterpretState (b : BitsVec) (s : State) : Host.Outcome State Fault Refusal :=
  .next (yieldStage (.stateFlags (interpretState s.d b).1 (interpretState s.d b).2) s)

/-- The stage RENDER (R159). -/
def execRender (f : FieldIx) (e : Option EntryIx) (s : State) : Host.Outcome State Fault Refusal :=
  .next (yieldStage (.indices (render s.d s.fval f e)) s)

/-- The stage RENDER_NUM (R160); executed alone, on a field of either KIND and on any value (DESIGN CHOICE, logs 6 and 7). -/
def execRenderNum (f : FieldIx) (v : Val) (s : State) : Host.Outcome State Fault Refusal :=
  .next (yieldStage (.indices (renderNum s.d s.d.f[f] v)) s)

/-- The stage RENDER_ENUM (R161); executed alone, on a field of either KIND and any entry (DESIGN CHOICE, log 6). -/
def execRenderEnum (f : FieldIx) (e : EntryIx) (s : State) : Host.Outcome State Fault Refusal :=
  .next (yieldStage (.indices (renderEnum s.d s.d.f[f] e)) s)

end Sys2Proof.Machine
end

