-- ==== Sys2Proof/Machine/Validator.lean ====
section
/-!
DEFINITION. The command validator (spec/43_validator.md): VALIDATE, its four rules in order, first failure wins.
-/

namespace Sys2Proof.Machine

/-- Field `f` is part of the command and of the layout: `EN = 1` and `PRESENT[f] = 1` (R200). -/
def supplied (d : Descriptor) (c : CmdFlags) (f : FieldIx) : Bool := d.f[f].en && c.present.getLsbD f.val

/-- Rule 1: a required field is absent (R201). -/
def missingField (d : Descriptor) (c : CmdFlags) (f : FieldIx) : Bool :=
  d.f[f].en && d.f[f].req && !c.present.getLsbD f.val

/-- Rule 2: a supplied NUMERIC value is out of its declared range or too long for its field (R203, R204). -/
def outOfRange (d : Descriptor) (c : CmdFlags) (fval : Vector Val 4) (f : FieldIx) : Bool :=
  supplied d c f && d.f[f].kind == .numeric &&
    (decide (fval[f].toNat < d.f[f].min.toNat) || decide (d.f[f].max.toNat < fval[f].toNat) ||
      decide (fieldWidth d.f[f] < bitlen fval[f]))

/-- Rule 4: a supplied ENUM value has no table entry (R206). -/
def unmatchedEnum (d : Descriptor) (c : CmdFlags) (fval : Vector Val 4) (f : FieldIx) : Bool :=
  supplied d c f && d.f[f].kind == .enum && (entryByValue d f fval[f]).isNone

/-- Rule 4: the entry kept for a supplied ENUM field (R206). -/
def keptEntry (d : Descriptor) (c : CmdFlags) (fval : Vector Val 4) (f : FieldIx) : Option EntryIx :=
  if supplied d c f && d.f[f].kind == .enum then entryByValue d f fval[f] else none

/-- Rule 4's results `nomatch[f]` and `entry[f]` (R200). -/
def enumMatches (d : Descriptor) (c : CmdFlags) (fval : Vector Val 4) : Matches :=
  { unmatched := Vector.ofFn (unmatchedEnum d c fval), entry := Vector.ofFn (keptEntry d c fval) }

/-- Rule 4 (R206): in strict mode the first unmatched field is an error, otherwise it is a warning. -/
def validateEnums (d : Descriptor) (c : CmdFlags) (fval : Vector Val 4) : Except Raise Validated :=
  match allFields.find? (unmatchedEnum d c fval) with
  | some f =>
    if d.mode.strictEnum then .error { code := .unknownEnumeratedValue, field := .field f }
    else .ok { found := enumMatches d c fval, wEnum := true }
  | none => .ok { found := enumMatches d c fval, wEnum := false }

/-- VALIDATE (R200): presence of the fields, presence of the state, range, ambiguity, enumerated values. -/
def validate (d : Descriptor) (c : CmdFlags) (fval : Vector Val 4) : Except Raise Validated :=
  match allFields.find? (missingField d c) with
  | some f => .error { code := .incompleteCommand, field := .field f }
  | none =>
    if d.stateSeg.en && !c.sa && !c.sb then .error { code := .incompleteCommand, field := .state }
    else
      match allFields.find? (outOfRange d c fval) with
      | some f => .error { code := .fieldOutOfRange, field := .field f }
      | none =>
        if d.stateSeg.en && c.sa && c.sb then .error { code := .ambiguousState, field := .state }
        else validateEnums d c fval

/-- The stage VALIDATE (R200). -/
def execValidate (s : State) : Host.Outcome State Fault Refusal :=
  match validate s.d s.cmdf s.fval with
  | .ok v => .next (yieldStage (.validated v) s)
  | .error r => .next (raiseStage r s)

end Sys2Proof.Machine
end

