-- ==== Sys2Proof/Machine/Builder.lean ====
section
/-!
DEFINITION. The frame builder and the transmit scaling view (spec/42_frame_builder.md): BUILD and SCALE.
-/

namespace Sys2Proof.Machine

/-- Step 1, the baseline: every pair of the frame is `D.LOW` (R182). -/
def buildBaseline (d : Descriptor) (raw : RawBuf) : RawBuf :=
  (List.range (d.rawlen.toNat / 2)).foldl (fun r p => setPair r p d.low) raw

/-- Step 2, the header pair at pair 0 (R183). -/
def buildHeader (d : Descriptor) (raw : RawBuf) : RawBuf := setPair raw 0 d.hdr

/-- FRAME scope and an unmatched value: steps 3 and 4 are skipped (R186). -/
def suppressed (d : Descriptor) (m : Matches) : Bool :=
  d.mode.nomatchScope == .frame && allFields.any fun f => m.unmatched[f]

/-- Step 3 for one field: the high pair at each index of its bit run, if the field is visited (R181, R183). -/
def buildField (d : Descriptor) (c : CmdFlags) (fval : Vector Val 4) (m : Matches) (raw : RawBuf) (f : FieldIx) :
    RawBuf :=
  if supplied d c f && !m.unmatched[f] then
    (render d fval f m.entry[f]).foldl (fun r b => setPair r b d.high) raw
  else raw

/-- Step 3, the fields in layout order (R183). -/
def buildFields (d : Descriptor) (c : CmdFlags) (fval : Vector Val 4) (m : Matches) (raw : RawBuf) : RawBuf :=
  allFields.foldl (buildField d c fval m) raw

/-- The patterns of the state the command selects: A if SA is set, otherwise B (R184). -/
def selectedState (d : Descriptor) (c : CmdFlags) : Vector Pair 2 := if c.sa then d.sa else d.sb

/-- Step 4, the state override: `SW` whole pairs at `POS` (R184). -/
def buildState (d : Descriptor) (c : CmdFlags) (raw : RawBuf) : RawBuf :=
  if d.stateSeg.en then
    let r := setPair raw d.stateSeg.pos.toNat (selectedState d c)[0]
    if d.stateSeg.w2 then setPair r (d.stateSeg.pos.toNat + 1) (selectedState d c)[1] else r
  else raw

/-- Step 5, the footer pair at the last two slots, `RAWLEN - 2` and `RAWLEN - 1` (R185). A sequence shorter than two
slots has no such slots and takes no write (log 7). -/
def buildFooter (d : Descriptor) (raw : RawBuf) : RawBuf :=
  if 2 ≤ d.rawlen.toNat then
    setSlot (setSlot raw (d.rawlen.toNat - 2) d.ftr.m) (d.rawlen.toNat - 1) d.ftr.s
  else raw

/-- BUILD (R181): the five steps in their order, a later write replacing an earlier one (spec/30_encoding.md R102). -/
def build (d : Descriptor) (c : CmdFlags) (fval : Vector Val 4) (m : Matches) (raw : RawBuf) : RawBuf :=
  let framed := buildHeader d (buildBaseline d raw)
  buildFooter d (if suppressed d m then framed else buildState d c (buildFields d c fval m framed))

/-- SCALE (R190): `TXDUR[i] = RAW[i] * D.TU`, exact in 24 bits. -/
def scale (s : State) (i : SlotIx) : Duration := s.raw[i].setWidth 24 * s.d.tu.setWidth 24

/-- The stage BUILD (R181): it writes `RAW[0 .. RAWLEN-1]` and nothing else. DESIGN CHOICE (log 7): executed alone under a
descriptor that fails the check of R48 its steps write the slots their formulas name, also at and above `RAWLEN`. -/
def execBuild (m : Matches) (s : State) : Host.Outcome State Fault Refusal :=
  .next { s with raw := build s.d s.cmdf s.fval m s.raw }

/-- The stage SCALE (R190). -/
def execScale (i : SlotIx) (s : State) : Host.Outcome State Fault Refusal :=
  .next (yieldStage (.duration (scale s i)) s)

end Sys2Proof.Machine
end

