-- ==== Sys2Proof/Machine/Commands.lean ====
section
/-!
DEFINITION. The commands NOP, DECODE and ENCODE and the reserved command words (spec/44_commands.md).
-/

namespace Sys2Proof.Machine

/-- The common precondition of DECODE and ENCODE (R223): locked, and the descriptor passes its check. -/
def precheck (s : State) : Except Raise Unit :=
  if s.lock && cfgOk s.d then .ok () else .error { code := .badDescriptor, field := .noField }

/-- What DECODE computes before it writes anything (R221): the bit vector and its interpretation, or an error. -/
def decodeResult (s : State) : Except Raise (BitsVec × Interpreted) := do
  precheck s
  let b ← extract s
  return (b, interpret s.d b)

/-- What ENCODE finds before it writes anything (R222): the validator's results, or an error. -/
def encodeResult (s : State) : Except Raise Validated := do
  precheck s
  validate s.d s.cmdf s.fval

/-- The writes of a successful DECODE (R221). -/
def commitDecode (b : BitsVec) (c : Interpreted) (s : State) : State :=
  succeed c.wEnum { s with bits := b, fval := c.val, cmdf := { present := c.present, sa := c.sa, sb := c.sb } }

/-- The writes of a successful ENCODE (R222); `BITS` is left unspecified (R24). -/
def commitEncode (v : Validated) (s : State) : State :=
  unspecifyBits (succeed v.wEnum
    { s with raw := build s.d s.cmdf s.fval v.found s.raw, rxlen := s.d.rawlen })

/-- NOP (R220): nothing. -/
def execNop (s : State) : Host.Outcome State Fault Refusal := .next s

/-- DECODE (R221); on an error R228: `RAW` and `RXLEN` unchanged, `BITS`, `FVAL`, `CMDF` unspecified. -/
def execDecode (s : State) : Host.Outcome State Fault Refusal :=
  match decodeResult s with
  | .ok (b, c) => .next (commitDecode b c s)
  | .error r => .next (raise r (unspecifyCommand s))

/-- ENCODE (R222); on an error R228: `FVAL`, `CMDF`, `RAW`, `RXLEN` unchanged, `BITS` unspecified. -/
def execEncode (s : State) : Host.Outcome State Fault Refusal :=
  match encodeResult s with
  | .ok v => .next (commitEncode v s)
  | .error r => .next (raise r (unspecifyBits s))

/-- A reserved command word (R93, R224): `BadCommand`, and nothing else. The word itself is recorded nowhere (R244). -/
def execReserved (_w : Word) (s : State) : Host.Outcome State Fault Refusal :=
  .next (raise { code := .badCommand, field := .noField } s)

end Sys2Proof.Machine
end

