-- ==== Sys2Proof/Machine/Dispatch.lean ====
section
/-!
DEFINITION. One arm per row of spec/opcode_table.json.
-/

namespace Sys2Proof.Machine

def exec (i : Instr) (s : State) : Host.Outcome State Fault Refusal :=
  match i with
  -- the commands (spec/44_commands.md)
  | .nop => Sys2Proof.Machine.execNop s
  | .decode => Sys2Proof.Machine.execDecode s
  | .encode => Sys2Proof.Machine.execEncode s
  | .reserved w => Sys2Proof.Machine.execReserved w s
  -- the slot sampler (spec/40_slot_sampler.md)
  | .extract => Sys2Proof.Machine.execExtract s
  | .sample m sp => Sys2Proof.Machine.execSample m sp s
  -- the field mapper (spec/41_field_mapper.md)
  | .interpret b => Sys2Proof.Machine.execInterpret b s
  | .interpretNumNatural b f => Sys2Proof.Machine.execInterpretNumNatural b f s
  | .interpretNumReversed b f => Sys2Proof.Machine.execInterpretNumReversed b f s
  | .interpretEnum b f => Sys2Proof.Machine.execInterpretEnum b f s
  | .interpretState b => Sys2Proof.Machine.execInterpretState b s
  | .render f e => Sys2Proof.Machine.execRender f e s
  | .renderNum f v => Sys2Proof.Machine.execRenderNum f v s
  | .renderEnum f e => Sys2Proof.Machine.execRenderEnum f e s
  -- the command validator (spec/43_validator.md)
  | .validate => Sys2Proof.Machine.execValidate s
  -- the frame builder and the scaling view (spec/42_frame_builder.md)
  | .build m => Sys2Proof.Machine.execBuild m s
  | .scale slot => Sys2Proof.Machine.execScale slot s

end Sys2Proof.Machine
end

