-- ==== Sys2Proof/Machine/Registers.lean ====
section
/-!
DEFINITION. The register space (spec/20_memory.md R61 to R64): the address map, the layouts of the multi-field
registers, `RegRead` and the register part of `RegWrite`.
-/

namespace Sys2Proof.Machine

/-- The registers of the map (R63). -/
inductive Reg where
  | cmd
  | status
  | ctrl
  | rxlen
  | cmdf
  | bits
  | fval (f : FieldIx)
  | dRawlen
  | dBitlen
  | dTu
  | dPulse
  | dCategory
  | dMode
  | dSentinel
  | dHdr
  | dFtr
  | dLow
  | dHigh
  | dState
  | dSa (k : Fin 2)
  | dSb (k : Fin 2)
  | dFieldCtl (f : FieldIx)
  | dFieldMin (f : FieldIx)
  | dFieldMax (f : FieldIx)
  | dEntryCtl (e : EntryIx)
  | dEntryValue (e : EntryIx)
  | dEntryPattern (e : EntryIx)
  | raw (i : SlotIx)
  | txdur (i : SlotIx)
  deriving DecidableEq, Repr

/-- The byte offset of a register (R63). -/
def Reg.offset : Reg → Nat
  | .cmd => 0x000
  | .status => 0x004
  | .ctrl => 0x008
  | .rxlen => 0x00C
  | .cmdf => 0x010
  | .bits => 0x014
  | .fval f => 0x020 + 4 * f.val
  | .dRawlen => 0x040
  | .dBitlen => 0x044
  | .dTu => 0x048
  | .dPulse => 0x04C
  | .dCategory => 0x050
  | .dMode => 0x054
  | .dSentinel => 0x058
  | .dHdr => 0x05C
  | .dFtr => 0x060
  | .dLow => 0x064
  | .dHigh => 0x068
  | .dState => 0x06C
  | .dSa k => 0x070 + 4 * k.val
  | .dSb k => 0x078 + 4 * k.val
  | .dFieldCtl f => 0x080 + 16 * f.val
  | .dFieldMin f => 0x084 + 16 * f.val
  | .dFieldMax f => 0x088 + 16 * f.val
  | .dEntryCtl e => 0x0C0 + 16 * e.val
  | .dEntryValue e => 0x0C4 + 16 * e.val
  | .dEntryPattern e => 0x0C8 + 16 * e.val
  | .raw i => 0x200 + 4 * i.val
  | .txdur i => 0x300 + 4 * i.val

/-- The registers below 0x080 that stand alone, by word index (R63). -/
def regOfFixed : Nat → Option Reg
  | 0 => some .cmd
  | 1 => some .status
  | 2 => some .ctrl
  | 3 => some .rxlen
  | 4 => some .cmdf
  | 5 => some .bits
  | 8 => some (.fval 0)
  | 9 => some (.fval 1)
  | 10 => some (.fval 2)
  | 11 => some (.fval 3)
  | 16 => some .dRawlen
  | 17 => some .dBitlen
  | 18 => some .dTu
  | 19 => some .dPulse
  | 20 => some .dCategory
  | 21 => some .dMode
  | 22 => some .dSentinel
  | 23 => some .dHdr
  | 24 => some .dFtr
  | 25 => some .dLow
  | 26 => some .dHigh
  | 27 => some .dState
  | 28 => some (.dSa 0)
  | 29 => some (.dSa 1)
  | 30 => some (.dSb 0)
  | 31 => some (.dSb 1)
  | _ => none

/-- The register at a word index of the space, if there is one: word `w` is the bytes `4w .. 4w + 3` (R63). The layout
and table entries are 4 words apart, their fourth word unmapped. -/
def regOfWordIndex (w : Nat) : Option Reg :=
  if w < 0x20 then regOfFixed w
  else if w < 0x30 then
    let f := Fin.ofNat 4 ((w - 0x20) / 4)
    if w % 4 = 0 then some (.dFieldCtl f)
    else if w % 4 = 1 then some (.dFieldMin f)
    else if w % 4 = 2 then some (.dFieldMax f)
    else none
  else if w < 0x50 then
    let e := Fin.ofNat 8 ((w - 0x30) / 4)
    if w % 4 = 0 then some (.dEntryCtl e)
    else if w % 4 = 1 then some (.dEntryValue e)
    else if w % 4 = 2 then some (.dEntryPattern e)
    else none
  else if w < 0x80 then none
  else if w < 0xC0 then some (.raw (Fin.ofNat 64 (w - 0x80)))
  else if w < 0x100 then some (.txdur (Fin.ofNat 64 (w - 0xC0)))
  else none

/-- The register at a byte offset; `none` for an unmapped offset and for one that is no multiple of 4 (R63). -/
def regOfOffset (a : Nat) : Option Reg := if a % 4 = 0 then regOfWordIndex (a / 4) else none

/-- A pair register as a word: `M` in 7:0, `S` in 15:8 (spec/10_state.md R38). -/
def pairWord (p : Pair) : Word := 0#16 ++ p.s ++ p.m

/-- A pair register from a word (R38, R62). -/
def pairOfWord (v : Word) : Pair := { m := v.extractLsb' 0 8, s := v.extractLsb' 8 8 }

/-- `D.MODE` as a word (R36). -/
def modeWord (x : Mode) : Word :=
  0#28 ++ BitVec.ofBool (x.nomatchScope == .frame) ++ BitVec.ofBool x.strictEnum ++
    BitVec.ofBool (x.half == .second) ++ BitVec.ofBool (x.order == .reversed)

/-- `D.MODE` from a word (R36). -/
def modeOfWord (v : Word) : Mode :=
  { order := if v.getLsbD 0 then .reversed else .natural
    half := if v.getLsbD 1 then .second else .first
    strictEnum := v.getLsbD 2
    nomatchScope := if v.getLsbD 3 then .frame else .field }

/-- `D.STATE` as a word: EN 0, W2 1, POS 13:8 (R42). -/
def stateSegWord (x : StateSeg) : Word := 0#18 ++ x.pos ++ 0#6 ++ BitVec.ofBool x.w2 ++ BitVec.ofBool x.en

/-- `D.STATE` from a word (R42). -/
def stateSegOfWord (v : Word) : StateSeg :=
  { en := v.getLsbD 0, w2 := v.getLsbD 1, pos := v.extractLsb' 8 6 }

/-- `D.F[f].CTL` as a word: EN 0, KIND 1, REQ 2, START 13:8, END 21:16, NAME 31:24 (R44). -/
def fieldCtlWord (x : FieldEntry) : Word :=
  x.name ++ 0#2 ++ x.stop ++ 0#2 ++ x.start ++ 0#5 ++ BitVec.ofBool x.req ++ BitVec.ofBool (x.kind == .enum) ++
    BitVec.ofBool x.en

/-- A layout entry with its control word replaced (R44). -/
def fieldWithCtl (v : Word) (x : FieldEntry) : FieldEntry :=
  { x with
    en := v.getLsbD 0
    kind := if v.getLsbD 1 then .enum else .numeric
    req := v.getLsbD 2
    start := v.extractLsb' 8 6
    stop := v.extractLsb' 16 6
    name := v.extractLsb' 24 8 }

/-- `D.E[e].CTL` as a word: VALID 0, FIELD 3:2 (R46). -/
def entryCtlWord (x : EnumEntry) : Word := 0#28 ++ BitVec.ofNat 2 x.field.val ++ 0#1 ++ BitVec.ofBool x.valid

/-- A table entry with its control word replaced (R46). -/
def entryWithCtl (v : Word) (x : EnumEntry) : EnumEntry :=
  { x with valid := v.getLsbD 0, field := Fin.ofNat 4 (v.extractLsb' 2 2).toNat }

/-- `CMDF` as a word: PRESENT 3:0, SA 8, SB 9 (R26). -/
def cmdfWord (x : CmdFlags) : Word := 0#22 ++ BitVec.ofBool x.sb ++ BitVec.ofBool x.sa ++ 0#4 ++ x.present

/-- The word a read of a register returns, zero-extended (R62); `CMD` reads 0 (R28). -/
def readReg (s : State) : Reg → Word
  | .cmd => 0
  | .status => statusWord s
  | .ctrl => (BitVec.ofBool s.lock).setWidth 32
  | .rxlen => s.rxlen.setWidth 32
  | .cmdf => cmdfWord s.cmdf
  | .bits => s.bits
  | .fval f => s.fval[f]
  | .dRawlen => s.d.rawlen.setWidth 32
  | .dBitlen => s.d.bitlen.setWidth 32
  | .dTu => s.d.tu.setWidth 32
  | .dPulse => s.d.pulse.setWidth 32
  | .dCategory => s.d.category.setWidth 32
  | .dMode => modeWord s.d.mode
  | .dSentinel => s.d.sentinel.setWidth 32
  | .dHdr => pairWord s.d.hdr
  | .dFtr => pairWord s.d.ftr
  | .dLow => pairWord s.d.low
  | .dHigh => pairWord s.d.high
  | .dState => stateSegWord s.d.stateSeg
  | .dSa k => pairWord s.d.sa[k]
  | .dSb k => pairWord s.d.sb[k]
  | .dFieldCtl f => fieldCtlWord s.d.f[f]
  | .dFieldMin f => s.d.f[f].min
  | .dFieldMax f => s.d.f[f].max
  | .dEntryCtl e => entryCtlWord s.d.e[e]
  | .dEntryValue e => s.d.e[e].value
  | .dEntryPattern e => s.d.e[e].pattern
  | .raw i => s.raw[i].setWidth 32
  | .txdur i => (scale s i).setWidth 32

/-- `RegRead(a)` for an aligned offset inside the space: an unmapped offset reads 0 (R64). -/
def regRead (s : State) (a : Nat) : Word :=
  match regOfOffset a with
  | some r => readReg s r
  | none => 0

/-- The descriptor with one of its registers written (R30); no other register of the map is part of it. -/
def writeDescriptor (d : Descriptor) (r : Reg) (v : Word) : Descriptor :=
  match r with
  | .dRawlen => { d with rawlen := v.setWidth 7 }
  | .dBitlen => { d with bitlen := v.setWidth 6 }
  | .dTu => { d with tu := v.setWidth 16 }
  | .dPulse => { d with pulse := v.setWidth 8 }
  | .dCategory => { d with category := v.setWidth 8 }
  | .dMode => { d with mode := modeOfWord v }
  | .dSentinel => { d with sentinel := v.setWidth 8 }
  | .dHdr => { d with hdr := pairOfWord v }
  | .dFtr => { d with ftr := pairOfWord v }
  | .dLow => { d with low := pairOfWord v }
  | .dHigh => { d with high := pairOfWord v }
  | .dState => { d with stateSeg := stateSegOfWord v }
  | .dSa k => { d with sa := d.sa.set k (pairOfWord v) }
  | .dSb k => { d with sb := d.sb.set k (pairOfWord v) }
  | .dFieldCtl f => { d with f := d.f.set f (fieldWithCtl v d.f[f]) }
  | .dFieldMin f => { d with f := d.f.set f { d.f[f] with min := v } }
  | .dFieldMax f => { d with f := d.f.set f { d.f[f] with max := v } }
  | .dEntryCtl e => { d with e := d.e.set e (entryWithCtl v d.e[e]) }
  | .dEntryValue e => { d with e := d.e.set e { d.e[e] with value := v } }
  | .dEntryPattern e => { d with e := d.e.set e { d.e[e] with pattern := v } }
  | .cmd | .status | .ctrl | .rxlen | .cmdf | .bits | .fval _ | .raw _ | .txdur _ => d

/-- A host write to a register other than `CMD` (R62 to R64, R68): read-only registers take none, `CTRL` can only be
set (spec/10_state.md R47), `D.*` registers take one only while unlocked (R30). -/
def writeReg (r : Reg) (v : Word) (s : State) : State :=
  match r with
  | .cmd | .status | .bits | .txdur _ => s
  | .ctrl => { s with lock := s.lock || v.getLsbD 0 }
  | .rxlen => { s with rxlen := v.setWidth 7 }
  | .cmdf => { s with cmdf := cmdfOfWord v }
  | .fval f => { s with fval := s.fval.set f v }
  | .raw i => { s with raw := s.raw.set i (v.setWidth 8) }
  | .dRawlen | .dBitlen | .dTu | .dPulse | .dCategory | .dMode | .dSentinel | .dHdr | .dFtr | .dLow | .dHigh | .dState
  | .dSa _ | .dSb _ | .dFieldCtl _ | .dFieldMin _ | .dFieldMax _ | .dEntryCtl _ | .dEntryValue _ | .dEntryPattern _ =>
    if s.lock then s else { s with d := writeDescriptor s.d r v }

end Sys2Proof.Machine
end

