-- ==== Sys2Proof/Machine/HostAccess.lean ====
section
/-!
DEFINITION. One host event (spec/20_memory.md R60, R62, R66, R70): a read, a write, a write to `CMD` that runs a command,
or the reset input.
-/

namespace Sys2Proof.Machine

/-- Whether an access is outside the specification (R62, R67, U8): not one whole aligned word of the space. -/
def accessRefusal (width : AccessWidth) (a : Nat) : Option Refusal :=
  if width ≠ .word then some (.notOneWord width)
  else if Config.spaceBytes ≤ a then some (.outsideSpace a)
  else if a % 4 ≠ 0 then some (.misaligned a)
  else none

/-- `RegRead(a)`: the value goes to the host, nothing else changes (R62, R68). -/
def hostRead (width : AccessWidth) (a : Nat) (s : State) : Host.Outcome State Fault Refusal :=
  match accessRefusal width a with
  | some r => .refused r
  | none => .next { s with reads := s.reads ++ [regRead s a] }

/-- `RegWrite(a, v)` with the access known to be in the specification: a write to `CMD` performs the command
(spec/10_state.md R28, R66), a write to an unmapped offset is ignored (R64). -/
def writeOffset (a : Nat) (v : Word) (s : State) : Host.Outcome State Fault Refusal :=
  match regOfOffset a with
  | some .cmd => exec (decodeWord v) s
  | some r => .next (writeReg r v s)
  | none => .next s

/-- `RegWrite(a, v)` (R62). -/
def hostWrite (width : AccessWidth) (a : Nat) (v : Word) (s : State) : Host.Outcome State Fault Refusal :=
  match accessRefusal width a with
  | some r => .refused r
  | none => writeOffset a v s

/-- One host event. -/
def hostEvent (e : HostEvent) (s : State) : Host.Outcome State Fault Refusal :=
  match e with
  | .regRead width a => hostRead width a s
  | .regWrite width a v => hostWrite width a v s
  | .assertReset => .next (resetInput s)

/-- The state with its next host event taken off the list. -/
def dropEvent (s : State) : State := { s with host := s.host.tail }

/-- One step (R70, spec/70_reset_and_hazards.md R279): the next host event; with none pending the block is idle and its
state does not change. -/
def hostStep (s : State) : Host.Outcome State Fault Refusal :=
  match s.host with
  | [] => .next s
  | e :: _ => hostEvent e (dropEvent s)

end Sys2Proof.Machine
end

