-- ==== Sys2Proof/Machine/Step.lean ====
section
/-!
DEFINITION. The step of the machine, and how an instruction is placed where the next step takes it.
-/

namespace Sys2Proof.Machine

/-- One step: one host event (spec/70_reset_and_hazards.md R279). -/
def step (s : State) : Host.Outcome State Fault Refusal := hostStep s

/-- `s` with a host write of the word `w` to `CMD` as its next host event: the block fetches nothing, a command word
comes from the host (log 3). -/
def State.withFetchWord (s : State) (nbits w : Nat) : State :=
  { s with host := .regWrite .word 0x000 (BitVec.ofNat 32 (w % 2 ^ nbits)) :: s.host }

end Sys2Proof.Machine
end

