-- ==== Sys2Proof/Safety.lean ====
section
/-!
DEFINITION. The predicates the statements speak in, each written from its rule and not from the meanings: the descriptor
check, the round-trip predicate, the validator's rules and their order, the soundness of `STATUS`.
-/

namespace Sys2Proof.Machine

/-! ### The descriptor -/

/-- The number of pairs of the state segment, `SW = 1 + D.STATE.W2` (spec/10_state.md R42). -/
abbrev StateSeg.pairs (x : StateSeg) : Nat := 1 + x.w2.toNat

/-- `width(f)` of a range whose start is not above its end (spec/00_scope.md R14). -/
abbrev FieldEntry.bits (x : FieldEntry) : Nat := x.stop.toNat - x.start.toNat + 1

/-- Index `i` lies in the range `[START, END]`. -/
abbrev FieldEntry.Covers (x : FieldEntry) (i : Nat) : Prop := x.start.toNat ≤ i ∧ i ≤ x.stop.toNat

/-- Index `i` lies in the state range `[POS, POS + SW - 1]`. -/
abbrev StateSeg.Covers (x : StateSeg) (i : Nat) : Prop := x.pos.toNat ≤ i ∧ i < x.pos.toNat + x.pairs

/-- The descriptor check of R48, conditions (a) to (e). The bounds are compared for NUMERIC fields only: R45 and U12 have
every rule ignore those of an ENUM field (DEDUCED, log 14). -/
abbrev DescriptorValid (d : Descriptor) : Prop :=
  (2 ∣ d.rawlen.toNat ∧ 4 ≤ d.rawlen.toNat ∧ d.rawlen.toNat ≤ 64) ∧
  (d.bitlen.toNat ≤ d.rawlen.toNat / 2) ∧
  (∀ f : FieldIx, d.f[f].en = true →
    d.f[f].start.toNat ≤ d.f[f].stop.toNat ∧ d.f[f].stop.toNat < d.bitlen.toNat ∧ d.f[f].bits ≤ 32 ∧
      (d.f[f].kind = .numeric → d.f[f].min.toNat ≤ d.f[f].max.toNat)) ∧
  (d.stateSeg.en = true → d.stateSeg.pos.toNat + d.stateSeg.pairs ≤ d.bitlen.toNat) ∧
  (∀ e : EntryIx, d.e[e].valid = true → d.f[d.e[e].field].en = true ∧ d.f[d.e[e].field].kind = .enum)

/-- The sampler's verdict on a pair (spec/40_slot_sampler.md R131): the sampled slot equals the sentinel. -/
abbrev Sampled (d : Descriptor) (p : Pair) : Prop :=
  (match d.mode.half with
   | .first => p.m
   | .second => p.s) = d.sentinel

/-- The sampled bits of a state pattern stand at the state's pairs (spec/41_field_mapper.md R158). -/
abbrev StatePatternStands (d : Descriptor) (p : Vector Pair 2) (b : BitsVec) : Prop :=
  ∀ k : Fin 2, k.val < d.stateSeg.pairs → (b.getLsbD (d.stateSeg.pos.toNat + k.val) = true ↔ Sampled d p[k])

/-- The low `width(f)` bits of two patterns agree. -/
abbrev SamePattern (w : Nat) (p q : BitsVec) : Prop := ∀ j, j < w → p.getLsbD j = q.getLsbD j

/-- `RT_SAFE(D)` without its condition (e) (R49 (a) to (d)). -/
abbrev RoundTripLayout (d : Descriptor) : Prop :=
  DescriptorValid d ∧
  (Sampled d d.high ∧ ¬ Sampled d d.low) ∧
  (∀ f g : FieldIx, f ≠ g → d.f[f].en = true → d.f[g].en = true →
    d.f[f].stop.toNat < d.f[g].start.toNat ∨ d.f[g].stop.toNat < d.f[f].start.toNat) ∧
  (∀ f : FieldIx, d.f[f].en = true → d.stateSeg.en = true →
    d.f[f].stop.toNat < d.stateSeg.pos.toNat ∨ d.stateSeg.pos.toNat + d.stateSeg.pairs ≤ d.f[f].start.toNat) ∧
  (∀ f : FieldIx, d.f[f].en = true → ¬ d.f[f].Covers 0 ∧ ¬ d.f[f].Covers (d.rawlen.toNat / 2 - 1)) ∧
  (d.stateSeg.en = true → ¬ d.stateSeg.Covers 0 ∧ ¬ d.stateSeg.Covers (d.rawlen.toNat / 2 - 1)) ∧
  (d.stateSeg.en = true → ∃ k : Fin 2, k.val < d.stateSeg.pairs ∧ ¬ (Sampled d d.sa[k] ↔ Sampled d d.sb[k])) ∧
  (∀ f : FieldIx, d.f[f].kind = .enum → ∀ e e' : EntryIx, e ≠ e' →
    d.e[e].valid = true → d.e[e].field = f → d.e[e'].valid = true → d.e[e'].field = f →
      d.e[e].value ≠ d.e[e'].value ∧ ¬ SamePattern d.f[f].bits d.e[e].pattern d.e[e'].pattern)

/-- `RT_SAFE(D)` (R49). -/
abbrev RoundTripSafe (d : Descriptor) : Prop :=
  RoundTripLayout d ∧
  ∀ f : FieldIx, d.f[f].en = true → d.f[f].kind = .numeric → d.f[f].max.toNat < 2 ^ d.f[f].bits

/-! ### The validator's rules (spec/43_validator.md R200) -/

/-- Field `f` is enabled and part of the command. -/
abbrev Supplied (s : State) (f : FieldIx) : Prop := s.d.f[f].en = true ∧ s.cmdf.present.getLsbD f.val = true

/-- Entry `e` of the table stands for value `v` of field `f` (R206). -/
abbrev EntryFor (d : Descriptor) (f : FieldIx) (v : Val) (e : EntryIx) : Prop :=
  d.e[e].valid = true ∧ d.e[e].field = f ∧ d.e[e].value = v

/-- Rule 1: a required field is absent (R201). -/
abbrev FieldMissing (s : State) (f : FieldIx) : Prop :=
  s.d.f[f].en = true ∧ s.d.f[f].req = true ∧ s.cmdf.present.getLsbD f.val = false

/-- Rule 1: the state is enabled and neither flag is set (R202). -/
abbrev StateMissing (s : State) : Prop := s.d.stateSeg.en = true ∧ s.cmdf.sa = false ∧ s.cmdf.sb = false

/-- Rule 2: a supplied NUMERIC value is below MIN, above MAX, or does not fit the field (R203, R204). -/
abbrev ValueRejected (s : State) (f : FieldIx) : Prop :=
  Supplied s f ∧ s.d.f[f].kind = .numeric ∧
    (s.fval[f].toNat < s.d.f[f].min.toNat ∨ s.d.f[f].max.toNat < s.fval[f].toNat ∨
      2 ^ s.d.f[f].bits ≤ s.fval[f].toNat)

/-- Rule 3: the state is enabled and both flags are set (R205). -/
abbrev StateAmbiguous (s : State) : Prop := s.d.stateSeg.en = true ∧ s.cmdf.sa = true ∧ s.cmdf.sb = true

/-- Rule 4: a supplied ENUM value has no table entry (R206). -/
abbrev EnumUnmatched (s : State) (f : FieldIx) : Prop :=
  Supplied s f ∧ s.d.f[f].kind = .enum ∧ ∀ e : EntryIx, ¬ EntryFor s.d f s.fval[f] e

/-- `f` is the first field in layout order with property `P`. -/
abbrev FirstField (P : FieldIx → Prop) (f : FieldIx) : Prop := P f ∧ ∀ g : FieldIx, g < f → ¬ P g

/-- VALIDATE passes: no rule fails (R200). -/
abbrev CommandAccepted (s : State) : Prop :=
  (∀ f, ¬ FieldMissing s f) ∧ ¬ StateMissing s ∧ (∀ f, ¬ ValueRejected s f) ∧ ¬ StateAmbiguous s ∧
    (s.d.mode.strictEnum = true → ∀ f, ¬ EnumUnmatched s f)

/-- VALIDATE raises `r`: the first failure in the order of R200 and spec/60_exceptions.md R249. -/
inductive CommandRejected (s : State) : Raise → Prop where
  /-- Rule 1, fields (R201). -/
  | fieldMissing (f : FieldIx) (h : FirstField (FieldMissing s) f) : CommandRejected s ⟨.incompleteCommand, .field f⟩
  /-- Rule 1, state (R202). -/
  | stateMissing (h1 : ∀ f, ¬ FieldMissing s f) (h : StateMissing s) : CommandRejected s ⟨.incompleteCommand, .state⟩
  /-- Rule 2 (R203, R204). -/
  | valueRejected (f : FieldIx) (h1 : ∀ g, ¬ FieldMissing s g) (h2 : ¬ StateMissing s)
      (h : FirstField (ValueRejected s) f) : CommandRejected s ⟨.fieldOutOfRange, .field f⟩
  /-- Rule 3 (R205). -/
  | stateAmbiguous (h1 : ∀ g, ¬ FieldMissing s g) (h2 : ∀ g, ¬ ValueRejected s g) (h : StateAmbiguous s) :
      CommandRejected s ⟨.ambiguousState, .state⟩
  /-- Rule 4 in strict mode (R206). -/
  | enumUnmatched (f : FieldIx) (h1 : ∀ g, ¬ FieldMissing s g) (h2 : ¬ StateMissing s)
      (h3 : ∀ g, ¬ ValueRejected s g) (h4 : ¬ StateAmbiguous s) (h5 : s.d.mode.strictEnum = true)
      (h : FirstField (EnumUnmatched s) f) : CommandRejected s ⟨.unknownEnumeratedValue, .field f⟩

/-- A descriptor that lets DECODE and ENCODE start: locked and valid (spec/44_commands.md R223). -/
abbrev Ready (s : State) : Prop := s.lock = true ∧ DescriptorValid s.d

/-- The commands of the round-trip law (R49): all enabled fields present, NUMERIC values inside their bounds and short
enough for the field, ENUM values in the table, exactly one state flag when there is a state. -/
abbrev RoundTripCommand (s : State) : Prop :=
  (∀ f : FieldIx, s.d.f[f].en = true →
    s.cmdf.present.getLsbD f.val = true ∧
    (s.d.f[f].kind = .numeric →
      s.d.f[f].min.toNat ≤ s.fval[f].toNat ∧ s.fval[f].toNat ≤ s.d.f[f].max.toNat ∧
        s.fval[f].toNat < 2 ^ s.d.f[f].bits) ∧
    (s.d.f[f].kind = .enum → ∃ e : EntryIx, EntryFor s.d f s.fval[f] e)) ∧
  (s.d.stateSeg.en = true → s.cmdf.sa ≠ s.cmdf.sb)

/-! ### The status register -/

/-- What `STATUS` says is backed by the rest of the state (spec/60_exceptions.md R241, spec/10_state.md R27): the result
codes go with their error fields, `OUT_VALID` with OK, `W_ENUM` only with OK; every result but NONE, BadDescriptor and
BadCommand was produced under a locked, valid descriptor, and a reported field is one that could fail that way. -/
abbrev StatusSound (s : State) : Prop :=
  (s.status.outValid = true ↔ s.status.result = .ok) ∧
  (s.status.wEnum = true → s.status.result = .ok) ∧
  (match s.status.result with
   | .none | .badDescriptor | .badCommand => s.status.errField = .noField
   | .ok | .invalidFrameLength => s.status.errField = .noField ∧ s.lock = true ∧ cfgOk s.d = true
   | .incompleteCommand =>
     ((s.status.errField = .state ∧ s.d.stateSeg.en = true) ∨
       ∃ f : FieldIx, s.status.errField = .field f ∧ s.d.f[f].en = true ∧ s.d.f[f].req = true) ∧
       s.lock = true ∧ cfgOk s.d = true
   | .fieldOutOfRange =>
     (∃ f : FieldIx, s.status.errField = .field f ∧ s.d.f[f].en = true ∧ s.d.f[f].kind = .numeric) ∧
       s.lock = true ∧ cfgOk s.d = true
   | .ambiguousState =>
     s.status.errField = .state ∧ s.d.stateSeg.en = true ∧ s.lock = true ∧ cfgOk s.d = true
   | .unknownEnumeratedValue =>
     (∃ f : FieldIx, s.status.errField = .field f ∧ s.d.f[f].en = true ∧ s.d.f[f].kind = .enum) ∧
       s.d.mode.strictEnum = true ∧ s.lock = true ∧ cfgOk s.d = true)

/-! ### Host accesses -/

/-- An access inside the specification: one aligned word below 0x400 (spec/20_memory.md R62, R67). -/
abbrev WholeWord (width : AccessWidth) (a : Nat) : Prop := width = .word ∧ 4 ∣ a ∧ a < 0x400

/-- The offsets of the map that hold no register (R63). -/
abbrev Unmapped (a : Nat) : Prop :=
  a = 0x018 ∨ a = 0x01C ∨ (0x030 ≤ a ∧ a ≤ 0x03C) ∨ (∃ f : FieldIx, a = 0x08C + 16 * f.val) ∨
    (∃ e : EntryIx, a = 0x0CC + 16 * e.val) ∨ (0x140 ≤ a ∧ a ≤ 0x1FC)

/-- A register word of a pair: `M` in bits 7:0, `S` in 15:8, 0 above (spec/10_state.md R38). -/
abbrev HoldsPair (w : Word) (p : Pair) : Prop :=
  w.extractLsb' 0 8 = p.m ∧ w.extractLsb' 8 8 = p.s ∧ w.extractLsb' 16 16 = 0

/-! ### Frames -/

/-- The code a pair puts into slot `i`: the mark into an even slot, the space into an odd one (spec/00_scope.md R13). -/
abbrev Pair.half (p : Pair) (i : Nat) : Code := if i % 2 = 0 then p.m else p.s

/-- The slot of pair `i` that the sampler reads, `2*i + D.HALF` (spec/20_memory.md R69). -/
abbrev sampledSlotIx (d : Descriptor) (i : Nat) : Nat :=
  2 * i + (match d.mode.half with
    | .first => 0
    | .second => 1)

/-- Pair `p` belongs to an enabled state segment. -/
abbrev StatePair (d : Descriptor) (p : Nat) : Prop := d.stateSeg.en = true ∧ d.stateSeg.Covers p

/-- An unmatched value suppresses fields and state: FRAME scope (spec/42_frame_builder.md R186). -/
abbrev FrameSuppressed (d : Descriptor) (m : Matches) : Prop :=
  d.mode.nomatchScope = .frame ∧ ∃ f : FieldIx, m.unmatched[f] = true

/-- Pair `p` is rendered high by some visited field: enabled, present, not unmatched (R183). -/
def HighPair (s : State) (m : Matches) (p : Nat) : Prop :=
  ∃ (f : FieldIx) (l : List Nat), Supplied s f ∧ m.unmatched[f] = false ∧
    exec (.render f m.entry[f]) s = .next { s with stageOut := .indices l } ∧ p ∈ l

end Sys2Proof.Machine
end

