-- ==== Sys2Proof/Certificates/Slice0/Obligations.lean ====
section
/-!
DEFINITION. The statements for the provers. Where a register becomes unspecified (spec/93_implementation_defined.md U1
to U3) a statement says only that it holds some value. Two things are the model's way of showing what the rules say, not
the spec's: a stage executed alone leaves its result in `stageOut` (log 6), and what the host does next stands in `host`
(log 3). `DescriptorValid`, and `Ready` with it, is the check of R48 with `MIN` and `MAX` compared for NUMERIC fields only
(log 14): where an enabled ENUM field has `MIN` above `MAX`, what a statement says of a valid or an invalid descriptor is the
model's choice. What a statement says of a stage executed alone under a descriptor that fails the check is the model's choice
where log 7 names the case.
-/

open Sys2Proof Sys2Proof.Machine

/-! ### The command word -/

/-- spec/30_encoding.md R91 to R93: an instruction with a command word is read back from it, with every operand. -/
def Obligations.DecodeOfEncodeIsInstruction : Prop :=
  ∀ (i : Instr) (rest : List Word), i.wellFormed = true → i.isCommand = true →
    decode (encode i ++ rest) = .ok (i, rest)

/-- R91, R92, R93: every 32-bit word starts exactly one well-formed command, and no bit of the word is lost. -/
def Obligations.EveryWordIsOneCommand : Prop :=
  ∀ w : Word, (decodeWord w).isCommand = true ∧ (decodeWord w).wellFormed = true ∧ encode (decodeWord w) = [w]

/-- R92, R93: the reserved words are exactly those other than 0, 1 and 2. -/
def Obligations.OpcodeMapIsExact : Prop :=
  ∀ w : Word,
    (decodeWord w = .nop ↔ w = 0x00000000#32) ∧ (decodeWord w = .decode ↔ w = 0x00000001#32) ∧
    (decodeWord w = .encode ↔ w = 0x00000002#32) ∧
    (decodeWord w = .reserved w ↔ w.extractLsb' 0 2 = 3 ∨ w.extractLsb' 2 30 ≠ 0)

/-- R92, R93 on words written out. -/
def Obligations.SampleWordsDecode : Prop :=
  decodeWord 0x00000000#32 = .nop ∧ decodeWord 0x00000001#32 = .decode ∧ decodeWord 0x00000002#32 = .encode ∧
  decodeWord 0x00000003#32 = .reserved 0x00000003#32 ∧ decodeWord 0x00010001#32 = .reserved 0x00010001#32 ∧
  decodeWord 0x80000000#32 = .reserved 0x80000000#32

/-- spec/10_state.md R28: a host write of `w` to `CMD` performs the command `w` stands for, and a read of `CMD` returns 0.
The write is one step (spec/20_memory.md R66): exec of the decoded instruction on the state without the event. -/
def Obligations.StepRunsDecodedCommand : Prop :=
  ∀ (s : State) (w : Word) (rest : List HostEvent),
    (s.host = .regWrite .word 0x000 w :: rest → step s = exec (decodeWord w) { s with host := rest }) ∧
    regRead s 0x000 = 0

/-! ### The commands -/

/-- spec/44_commands.md R220: NOP changes nothing. -/
def Obligations.NopChangesNothing : Prop := ∀ s : State, exec .nop s = .next s

/-- R93, R224: a reserved word sets `STATUS` to `BadCommand` and changes nothing else, whatever the descriptor. The clause
that `BITS` is unchanged is the model's choice (log 8): spec/93_implementation_defined.md U3 lets a model rely on that or
not. -/
def Obligations.ReservedWordSetsBadCommand : Prop :=
  ∀ (s : State) (w : Word),
    exec (.reserved w) s =
      .next { s with status := { result := .badCommand, errField := .noField, wEnum := false, outValid := false } }

/-- R221 with R109: under a locked, valid descriptor and the declared length, DECODE is EXTRACT then INTERPRET, and it
writes `BITS`, `FVAL`, `CMDF` and `STATUS` and nothing else. -/
def Obligations.DecodeIsExtractThenInterpret : Prop :=
  ∀ s : State, Ready s → s.rxlen = s.d.rawlen →
    ∃ (b : BitsVec) (c : Interpreted),
      exec .extract s = .next { s with stageOut := .bits b } ∧
      exec (.interpret b) s = .next { s with stageOut := .command c } ∧
      exec .decode s = .next { s with
        bits := b, fval := c.val, cmdf := { present := c.present, sa := c.sa, sb := c.sb }
        status := { result := .ok, errField := .noField, wEnum := c.wEnum, outValid := true } }

/-- R221, R130, R24: the `BITS` a successful DECODE leaves. Bit `i` below `BITLEN` says whether slot `2*i + HALF` holds
the sentinel; the bits from `BITLEN` on are 0. -/
def Obligations.DecodeWritesSampledBits : Prop :=
  ∀ s : State, Ready s → s.rxlen = s.d.rawlen →
    ∃ t, exec .decode s = .next t ∧ t.status.result = .ok ∧
      ∀ i : Nat, t.bits.getLsbD i = true ↔ i < s.d.bitlen.toNat ∧ s.raw[sampledSlotIx s.d i]? = some s.d.sentinel

/-- R223, R228: DECODE without a locked, valid descriptor is `BadDescriptor`; `BITS`, `FVAL`, `CMDF` hold some values,
everything else of the block is unchanged. -/
def Obligations.DecodeNeedsDescriptor : Prop :=
  ∀ s : State, ¬ Ready s →
    ∃ (b : BitsVec) (v : Vector Val 4) (c : CmdFlags) (n : Nat),
      exec .decode s = .next { s with
        bits := b, fval := v, cmdf := c, draws := n
        status := { result := .badDescriptor, errField := .noField, wEnum := false, outValid := false } }

/-- R130, R221, R228: DECODE of a wrong length is `InvalidFrameLength`; `RAW` and `RXLEN` are unchanged. -/
def Obligations.DecodeRejectsWrongLength : Prop :=
  ∀ s : State, Ready s → s.rxlen ≠ s.d.rawlen →
    ∃ (b : BitsVec) (v : Vector Val 4) (c : CmdFlags) (n : Nat),
      exec .decode s = .next { s with
        bits := b, fval := v, cmdf := c, draws := n
        status := { result := .invalidFrameLength, errField := .noField, wEnum := false, outValid := false } }

/-- R222 with R109: under a locked, valid descriptor and a command the validator accepts, ENCODE is VALIDATE then BUILD;
it writes `RAW`, `RXLEN`, `STATUS`, leaves `BITS` at some value, and changes nothing else. -/
def Obligations.EncodeIsValidateThenBuild : Prop :=
  ∀ s : State, Ready s → CommandAccepted s →
    ∃ (v : Validated) (r : RawBuf) (b : BitsVec) (n : Nat),
      exec .validate s = .next { s with stageOut := .validated v } ∧
      exec (.build v.found) s = .next { s with raw := r } ∧
      exec .encode s = .next { s with
        raw := r, rxlen := s.d.rawlen, bits := b, draws := n
        status := { result := .ok, errField := .noField, wEnum := v.wEnum, outValid := true } }

/-- R223, R228: ENCODE without a locked, valid descriptor is `BadDescriptor`; only `BITS` becomes unspecified. -/
def Obligations.EncodeNeedsDescriptor : Prop :=
  ∀ s : State, ¬ Ready s →
    ∃ (b : BitsVec) (n : Nat),
      exec .encode s = .next { s with
        bits := b, draws := n
        status := { result := .badDescriptor, errField := .noField, wEnum := false, outValid := false } }

/-- R222, R228, R249: ENCODE of a command the validator rejects reports the first failure in the order of R249, and no
slot, no length, no field value and no flag changes. -/
def Obligations.EncodeReportsFirstFailure : Prop :=
  ∀ (s : State) (r : Raise), Ready s → CommandRejected s r →
    ∃ (b : BitsVec) (n : Nat),
      exec .encode s = .next { s with
        bits := b, draws := n
        status := { result := r.code, errField := r.field, wEnum := false, outValid := false } }

/-- R200, R222, R249: under a locked, valid descriptor ENCODE ends with OK exactly on the commands no rule rejects. Every
other command has one first failure and no more, and `STATUS` is that failure's code and field. -/
def Obligations.CommandsHaveOneVerdict : Prop :=
  ∀ s : State, Ready s →
    ∃ t, exec .encode s = .next t ∧ (t.status.result = .ok ↔ CommandAccepted s) ∧
      (CommandAccepted s → ∀ r, ¬ CommandRejected s r) ∧
      (¬ CommandAccepted s → ∃ r, CommandRejected s r ∧ (∀ r', CommandRejected s r' → r' = r) ∧
        t.status = { result := r.code, errField := r.field, wEnum := false, outValid := false })

/-! ### The slot sampler -/

/-- spec/40_slot_sampler.md R131: SAMPLE compares the slot `HALF` selects with the sentinel, on every pair. -/
def Obligations.SampleComparesSelectedSlot : Prop :=
  ∀ (s : State) (m sp : Code),
    (s.d.mode.half = .first → exec (.sample m sp) s = .next { s with stageOut := .bit (decide (m = s.d.sentinel)) }) ∧
    (s.d.mode.half = .second → exec (.sample m sp) s = .next { s with stageOut := .bit (decide (sp = s.d.sentinel)) })

/-- R130, R132: EXTRACT of a sequence of the declared length yields the sample of each of the first `BITLEN` pairs (and
0 above), and changes no register. That it samples slots at and above `RAWLEN` where `BITLEN` is above `RAWLEN / 2`, and
yields 32 bits where `BITLEN` is above 32, is the model's choice (log 7). -/
def Obligations.ExtractSamplesEachPair : Prop :=
  ∀ s : State, s.rxlen = s.d.rawlen →
    ∃ b : BitsVec, exec .extract s = .next { s with stageOut := .bits b } ∧
      ∀ i : Nat, b.getLsbD i = true ↔
        i < 32 ∧ i < s.d.bitlen.toNat ∧ s.raw[sampledSlotIx s.d i]? = some s.d.sentinel

/-- R130, R244: EXTRACT of any other length raises `InvalidFrameLength`. That a stage executed alone writes `STATUS` as
the raise of a command does is the model's choice (log 6). -/
def Obligations.ExtractRaisesOnWrongLength : Prop :=
  ∀ s : State, s.rxlen ≠ s.d.rawlen →
    exec .extract s = .next { s with
      status := { result := .invalidFrameLength, errField := .noField, wEnum := false, outValid := false }
      stageOut := .raised { code := .invalidFrameLength, field := .noField } }

/-! ### The field mapper, decode direction -/

/-- spec/41_field_mapper.md R151, spec/30_encoding.md R103: under Natural order index `END - k` carries weight `2^k`, and
the value is zero-extended. R151 says so for a NUMERIC field under `D.ORDER = 0`; that the stage executed alone computes the
same sum under `D.ORDER = 1` and on an ENUM field is the model's choice (log 6). -/
def Obligations.NaturalOrderWeighsFromEnd : Prop :=
  ∀ (s : State) (b : BitsVec) (f : FieldIx),
    s.d.f[f].start.toNat ≤ s.d.f[f].stop.toNat → s.d.f[f].stop.toNat < 32 →
    ∃ v : Val, exec (.interpretNumNatural b f) s = .next { s with stageOut := .value v } ∧
      ∀ k : Nat, v.getLsbD k = (decide (k < s.d.f[f].bits) && b.getLsbD (s.d.f[f].stop.toNat - k))

/-- R153, R103: under Reversed order index `START + k` carries weight `2^k`, and the value is zero-extended. R153 says so for
a NUMERIC field under `D.ORDER = 1`; that the stage executed alone computes the same sum under `D.ORDER = 0` and on an ENUM
field is the model's choice (log 6). -/
def Obligations.ReversedOrderWeighsFromStart : Prop :=
  ∀ (s : State) (b : BitsVec) (f : FieldIx),
    s.d.f[f].start.toNat ≤ s.d.f[f].stop.toNat → s.d.f[f].stop.toNat < 32 →
    ∃ v : Val, exec (.interpretNumReversed b f) s = .next { s with stageOut := .value v } ∧
      ∀ k : Nat, v.getLsbD k = (decide (k < s.d.f[f].bits) && b.getLsbD (s.d.f[f].start.toNat + k))

/-- R152: on every range wider than one bit the two orders differ: some vector has two different readings. Both orders are
run in one state, so one of the two runs is always under the other `D.ORDER`: that such a run computes the sum of its own
order, where R152 has the order be `D.ORDER` and nothing else, is the model's choice (log 6), and the statement rests on
it. -/
def Obligations.BitOrdersDiffer : Prop :=
  ∀ (s : State) (f : FieldIx), s.d.f[f].start.toNat < s.d.f[f].stop.toNat → s.d.f[f].stop.toNat < 32 →
    ∃ (b : BitsVec) (v w : Val), exec (.interpretNumNatural b f) s = .next { s with stageOut := .value v } ∧
      exec (.interpretNumReversed b f) s = .next { s with stageOut := .value w } ∧ v ≠ w

/-- R155: INTERPRET_ENUM yields the VALUE of the first valid entry of the field whose low pattern bits stand in the
field, and no hit exactly when no entry does. R155 says so for a field of KIND ENUM; that the stage executed alone does the
same on a NUMERIC field is the model's choice (log 6). -/
def Obligations.EnumPatternFirstMatchWins : Prop :=
  ∀ (s : State) (b : BitsVec) (f : FieldIx),
    s.d.f[f].start.toNat ≤ s.d.f[f].stop.toNat → s.d.f[f].stop.toNat < 32 →
    (∀ e : EntryIx,
      (s.d.e[e].valid = true ∧ s.d.e[e].field = f ∧
        ∀ j < s.d.f[f].bits, s.d.e[e].pattern.getLsbD j = b.getLsbD (s.d.f[f].start.toNat + j)) →
      (∀ g : EntryIx, g < e → ¬ (s.d.e[g].valid = true ∧ s.d.e[g].field = f ∧
        ∀ j < s.d.f[f].bits, s.d.e[g].pattern.getLsbD j = b.getLsbD (s.d.f[f].start.toNat + j))) →
      exec (.interpretEnum b f) s = .next { s with stageOut := .enumHit (some s.d.e[e].value) }) ∧
    ((∀ e : EntryIx, ¬ (s.d.e[e].valid = true ∧ s.d.e[e].field = f ∧
        ∀ j < s.d.f[f].bits, s.d.e[e].pattern.getLsbD j = b.getLsbD (s.d.f[f].start.toNat + j))) →
      exec (.interpretEnum b f) s = .next { s with stageOut := .enumHit none })

/-- R158: INTERPRET_STATE compares the sampled state pairs with the sampled pattern A, then with B, else reports NONE. That the
stage executed alone does so also where `D.STATE.EN` is 0 is the model's choice (log 6). -/
def Obligations.StateIsRecognisedThroughSampler : Prop :=
  ∀ (s : State) (b : BitsVec), s.d.stateSeg.pos.toNat + s.d.stateSeg.pairs ≤ 32 →
    (StatePatternStands s.d s.d.sa b →
      exec (.interpretState b) s = .next { s with stageOut := .stateFlags true false }) ∧
    (¬ StatePatternStands s.d s.d.sa b → StatePatternStands s.d s.d.sb b →
      exec (.interpretState b) s = .next { s with stageOut := .stateFlags false true }) ∧
    (¬ StatePatternStands s.d s.d.sa b → ¬ StatePatternStands s.d s.d.sb b →
      exec (.interpretState b) s = .next { s with stageOut := .stateFlags false false })

/-- R150: INTERPRET reports each field by its own stage: a disabled one absent with value 0, a NUMERIC one present with
the value in the order of `D.ORDER`, an ENUM one present exactly on a hit; the state only when it is enabled; the
warning exactly when an enabled ENUM field has no hit. -/
def Obligations.InterpretReportsEveryField : Prop :=
  ∀ (s : State) (b : BitsVec),
    ∃ c : Interpreted, exec (.interpret b) s = .next { s with stageOut := .command c } ∧
      (∀ f : FieldIx,
        (s.d.f[f].en = false → c.val[f] = 0 ∧ c.present.getLsbD f.val = false) ∧
        (s.d.f[f].en = true → s.d.f[f].kind = .numeric → s.d.mode.order = .natural →
          c.present.getLsbD f.val = true ∧
          exec (.interpretNumNatural b f) s = .next { s with stageOut := .value c.val[f] }) ∧
        (s.d.f[f].en = true → s.d.f[f].kind = .numeric → s.d.mode.order = .reversed →
          c.present.getLsbD f.val = true ∧
          exec (.interpretNumReversed b f) s = .next { s with stageOut := .value c.val[f] }) ∧
        (s.d.f[f].en = true → s.d.f[f].kind = .enum →
          (c.present.getLsbD f.val = true →
            exec (.interpretEnum b f) s = .next { s with stageOut := .enumHit (some c.val[f]) }) ∧
          (c.present.getLsbD f.val = false →
            exec (.interpretEnum b f) s = .next { s with stageOut := .enumHit none } ∧ c.val[f] = 0))) ∧
      (s.d.stateSeg.en = true → exec (.interpretState b) s = .next { s with stageOut := .stateFlags c.sa c.sb }) ∧
      (s.d.stateSeg.en = false → c.sa = false ∧ c.sb = false) ∧
      (c.wEnum = true ↔
        ∃ f : FieldIx, s.d.f[f].en = true ∧ s.d.f[f].kind = .enum ∧ c.present.getLsbD f.val = false)

/-! ### The field mapper, encode direction -/

/-- R160, R104: RENDER_NUM yields exactly the indices of the 1 bits of the value, bit `k` at `START + k` under Reversed
and at `END - k` under Natural order, all inside the field. That the stage executed alone does so on an ENUM field too is
the model's choice (log 6). -/
def Obligations.RenderNumPlacesOneBits : Prop :=
  ∀ (s : State) (f : FieldIx) (v : Val),
    s.d.f[f].start.toNat ≤ s.d.f[f].stop.toNat → v.toNat < 2 ^ s.d.f[f].bits →
    ∃ l : List Nat, exec (.renderNum f v) s = .next { s with stageOut := .indices l } ∧
      (∀ i ∈ l, s.d.f[f].Covers i) ∧
      (s.d.mode.order = .reversed → ∀ i, i ∈ l ↔ ∃ k, v.getLsbD k = true ∧ i = s.d.f[f].start.toNat + k) ∧
      (s.d.mode.order = .natural → ∀ i, i ∈ l ↔ ∃ k, v.getLsbD k = true ∧ i + k = s.d.f[f].stop.toNat)

/-- R161, R105: RENDER_ENUM yields `START + j` for exactly the 1 bits of the pattern below the field's width, in both
orders. That the stage executed alone does so on a NUMERIC field, and for an entry of another field, is the model's choice
(log 6). -/
def Obligations.RenderEnumPlacesPatternBits : Prop :=
  ∀ (s : State) (f : FieldIx) (e : EntryIx),
    s.d.f[f].start.toNat ≤ s.d.f[f].stop.toNat → s.d.f[f].bits ≤ 32 →
    ∃ l : List Nat, exec (.renderEnum f e) s = .next { s with stageOut := .indices l } ∧
      ∀ i, i ∈ l ↔
        ∃ j < s.d.f[f].bits, s.d.e[e].pattern.getLsbD j = true ∧ i = s.d.f[f].start.toNat + j

/-- R159, R161: RENDER is RENDER_NUM of the field's value or RENDER_ENUM of the entry found; an ENUM field without an
entry contributes no index. -/
def Obligations.RenderDispatchesOnKind : Prop :=
  ∀ (s : State) (f : FieldIx) (e : EntryIx),
    ∃ l m : List Nat,
      (s.d.f[f].kind = .numeric → ∀ o : Option EntryIx,
        exec (.render f o) s = .next { s with stageOut := .indices l } ∧
        exec (.renderNum f s.fval[f]) s = .next { s with stageOut := .indices l }) ∧
      (s.d.f[f].kind = .enum →
        exec (.render f (some e)) s = .next { s with stageOut := .indices m } ∧
        exec (.renderEnum f e) s = .next { s with stageOut := .indices m } ∧
        exec (.render f none) s = .next { s with stageOut := .indices [] })

/-- R163, R104: what RENDER_NUM places, INTERPRET_NUM in the descriptor's order reads back. That this holds of an ENUM field
too is the model's choice (log 6). -/
def Obligations.NumericRunReadsBack : Prop :=
  ∀ (s : State) (f : FieldIx) (v : Val) (b : BitsVec) (l : List Nat),
    s.d.f[f].start.toNat ≤ s.d.f[f].stop.toNat → s.d.f[f].stop.toNat < 32 → v.toNat < 2 ^ s.d.f[f].bits →
    exec (.renderNum f v) s = .next { s with stageOut := .indices l } →
    (∀ i, s.d.f[f].Covers i → (b.getLsbD i = true ↔ i ∈ l)) →
    (s.d.mode.order = .natural → exec (.interpretNumNatural b f) s = .next { s with stageOut := .value v }) ∧
    (s.d.mode.order = .reversed → exec (.interpretNumReversed b f) s = .next { s with stageOut := .value v })

/-- R163: with pairwise different patterns, the vector rendered from a valid entry of an ENUM field is read back as that
entry's value. -/
def Obligations.EnumPatternReadsBack : Prop :=
  ∀ (s : State) (f : FieldIx) (e : EntryIx) (b : BitsVec) (l : List Nat),
    s.d.f[f].start.toNat ≤ s.d.f[f].stop.toNat → s.d.f[f].stop.toNat < 32 →
    s.d.e[e].valid = true → s.d.e[e].field = f →
    (∀ g h : EntryIx, g ≠ h → s.d.e[g].valid = true → s.d.e[g].field = f → s.d.e[h].valid = true →
      s.d.e[h].field = f → ¬ SamePattern s.d.f[f].bits s.d.e[g].pattern s.d.e[h].pattern) →
    exec (.renderEnum f e) s = .next { s with stageOut := .indices l } →
    (∀ i, s.d.f[f].Covers i → (b.getLsbD i = true ↔ i ∈ l)) →
    exec (.interpretEnum b f) s = .next { s with stageOut := .enumHit (some s.d.e[e].value) }

/-! ### The validator -/

/-- spec/43_validator.md R200, R206: an accepted command yields, for each supplied ENUM field, the first entry with its
value, or the mark that there is none, and the warning exactly when there is such a mark. No register changes. -/
def Obligations.ValidateAcceptsCommand : Prop :=
  ∀ s : State, CommandAccepted s → (∀ f : FieldIx, s.d.f[f].en = true → s.d.f[f].start.toNat ≤ s.d.f[f].stop.toNat) →
    ∃ v : Validated, exec .validate s = .next { s with stageOut := .validated v } ∧
      (∀ f : FieldIx, v.found.unmatched[f] = true ↔ EnumUnmatched s f) ∧
      (∀ (f : FieldIx) (e : EntryIx), Supplied s f → s.d.f[f].kind = .enum →
        (v.found.entry[f] = some e ↔
          EntryFor s.d f s.fval[f] e ∧ ∀ g : EntryIx, g < e → ¬ EntryFor s.d f s.fval[f] g)) ∧
      (v.wEnum = true ↔ ∃ f, EnumUnmatched s f)

/-- R200, R244, R249: a rejected command raises its first failure; only `STATUS` is written. That a stage executed alone
writes `STATUS` as the raise of a command does is the model's choice (log 6). -/
def Obligations.ValidateRaisesFirstFailure : Prop :=
  ∀ (s : State) (r : Raise), (∀ f : FieldIx, s.d.f[f].en = true → s.d.f[f].start.toNat ≤ s.d.f[f].stop.toNat) →
    CommandRejected s r →
    exec .validate s = .next { s with
      status := { result := r.code, errField := r.field, wEnum := false, outValid := false }, stageOut := .raised r }

/-! ### The frame builder -/

/-- spec/42_frame_builder.md R181 to R187, spec/30_encoding.md R102: what BUILD leaves in each slot, for values that fit
their fields. Slots from `RAWLEN` on are unchanged; below, the footer wins over the state, the state over a 1 bit, a
1 bit over the header, the header over the baseline. State and 1 bits are skipped when an unmatched value suppresses the
frame (R186). -/
def Obligations.BuildLaysOutFrame : Prop :=
  ∀ (s : State) (m : Matches), DescriptorValid s.d →
    (∀ f : FieldIx, Supplied s f → s.d.f[f].kind = .numeric → s.fval[f].toNat < 2 ^ s.d.f[f].bits) →
    ∃ r : RawBuf, exec (.build m) s = .next { s with raw := r } ∧
      ∀ i : SlotIx,
        (s.d.rawlen.toNat ≤ i.val → r[i] = s.raw[i]) ∧
        (i.val < s.d.rawlen.toNat → s.d.rawlen.toNat ≤ i.val + 2 → r[i] = s.d.ftr.half i.val) ∧
        (i.val + 2 < s.d.rawlen.toNat →
          (¬ FrameSuppressed s.d m → s.d.stateSeg.en = true → ∀ k : Fin 2, k.val < s.d.stateSeg.pairs →
            i.val / 2 = s.d.stateSeg.pos.toNat + k.val →
            r[i] = (if s.cmdf.sa then s.d.sa[k] else s.d.sb[k]).half i.val) ∧
          (¬ FrameSuppressed s.d m → ¬ StatePair s.d (i.val / 2) → HighPair s m (i.val / 2) →
            r[i] = s.d.high.half i.val) ∧
          (FrameSuppressed s.d m ∨ (¬ StatePair s.d (i.val / 2) ∧ ¬ HighPair s m (i.val / 2)) →
            r[i] = if i.val / 2 = 0 then s.d.hdr.half i.val else s.d.low.half i.val))

/-- R187, R188: the frame does not depend on what `RAW`, `RXLEN` or `BITS` held before. -/
def Obligations.FrameIsIndependentOfOldBuffer : Prop :=
  ∀ (s s' : State) (m : Matches), DescriptorValid s.d → s'.d = s.d → s'.cmdf = s.cmdf → s'.fval = s.fval →
    ∃ t t', exec (.build m) s = .next t ∧ exec (.build m) s' = .next t' ∧
      ∀ i : SlotIx, i.val < s.d.rawlen.toNat → t.raw[i] = t'.raw[i]

/-- R186: with an unmatched enumerated value, tolerant mode and FRAME scope, ENCODE succeeds with the warning, and the
frame is the low baseline with header and footer only. -/
def Obligations.UnmatchedValueSuppressesFrame : Prop :=
  ∀ (s : State) (f : FieldIx), Ready s → CommandAccepted s → s.d.mode.nomatchScope = .frame → EnumUnmatched s f →
    ∃ t, exec .encode s = .next t ∧
      t.status = { result := .ok, errField := .noField, wEnum := true, outValid := true } ∧
      ∀ i : SlotIx, i.val < s.d.rawlen.toNat →
        t.raw[i] = if s.d.rawlen.toNat ≤ i.val + 2 then s.d.ftr.half i.val
          else if i.val / 2 = 0 then s.d.hdr.half i.val else s.d.low.half i.val

/-- R190, spec/10_state.md R50: SCALE is the exact product of the code and the timing unit. -/
def Obligations.ScaleIsExactProduct : Prop :=
  ∀ (s : State) (i : SlotIx),
    ∃ t : Duration, exec (.scale i) s = .next { s with stageOut := .duration t } ∧
      t.toNat = s.raw[i].toNat * s.d.tu.toNat

/-- R50, R63: `TXDUR[i]` is a read-only view: a read returns the product of the current code and the timing unit, which
fits 24 bits, and a write is ignored. -/
def Obligations.TxdurReadsScaledCode : Prop :=
  ∀ (s : State) (i : SlotIx),
    (regRead s (0x300 + 4 * i.val)).toNat = s.raw[i].toNat * s.d.tu.toNat ∧
    (regRead s (0x300 + 4 * i.val)).toNat < 2 ^ 24 ∧
    ∀ (v : Word) (rest : List HostEvent), s.host = .regWrite .word (0x300 + 4 * i.val) v :: rest →
      step s = .next { s with host := rest }

/-- R191 (the header and footer of the scenario): for a 52-slot descriptor with the contact sensor's header and footer,
the scaled view of an encoded frame begins with `21*TU, 2*TU` and ends with `2*TU, 34*TU`. -/
def Obligations.ContactSensorFraming : Prop :=
  ∀ s : State, Ready s → CommandAccepted s → s.d.rawlen = 52 → s.d.hdr = ⟨21, 2⟩ → s.d.ftr = ⟨2, 34⟩ →
    (∀ f : FieldIx, s.d.f[f].en = true → 0 < s.d.f[f].start.toNat) →
    (s.d.stateSeg.en = true → 0 < s.d.stateSeg.pos.toNat) →
    ∃ t, exec .encode s = .next t ∧
      (regRead t 0x300).toNat = 21 * s.d.tu.toNat ∧ (regRead t 0x304).toNat = 2 * s.d.tu.toNat ∧
      (regRead t (0x300 + 4 * 50)).toNat = 2 * s.d.tu.toNat ∧ (regRead t (0x300 + 4 * 51)).toNat = 34 * s.d.tu.toNat

/-! ### The laws that tie the commands together -/

/-- spec/44_commands.md R227, spec/10_state.md R49: the round trip under `RT_SAFE`. -/
def Obligations.EncodeThenDecodeReturnsCommand : Prop :=
  ∀ s : State, s.lock = true → RoundTripSafe s.d → RoundTripCommand s →
    ∃ t u, exec .encode s = .next t ∧ exec .decode t = .next u ∧
      t.status.result = .ok ∧ u.status.result = .ok ∧
      (∀ f : FieldIx, s.d.f[f].en = true →
        u.fval[f] = s.fval[f] ∧ u.cmdf.present.getLsbD f.val = s.cmdf.present.getLsbD f.val) ∧
      (∀ f : FieldIx, s.d.f[f].en = false → u.fval[f] = 0 ∧ u.cmdf.present.getLsbD f.val = false) ∧
      (s.d.stateSeg.en = true → u.cmdf.sa = s.cmdf.sa ∧ u.cmdf.sb = s.cmdf.sb) ∧
      (s.d.stateSeg.en = false → u.cmdf.sa = false ∧ u.cmdf.sb = false)

/-- R49, its last part: without condition (e) the same round trip holds for the commands whose values fit. -/
def Obligations.RoundTripWithoutMaximumBound : Prop :=
  ∀ s : State, s.lock = true → RoundTripLayout s.d → RoundTripCommand s →
    ∃ t u, exec .encode s = .next t ∧ exec .decode t = .next u ∧
      t.status.result = .ok ∧ u.status.result = .ok ∧
      (∀ f : FieldIx, s.d.f[f].en = true →
        u.fval[f] = s.fval[f] ∧ u.cmdf.present.getLsbD f.val = s.cmdf.present.getLsbD f.val) ∧
      (∀ f : FieldIx, s.d.f[f].en = false → u.fval[f] = 0 ∧ u.cmdf.present.getLsbD f.val = false) ∧
      (s.d.stateSeg.en = true → u.cmdf.sa = s.cmdf.sa ∧ u.cmdf.sb = s.cmdf.sb) ∧
      (s.d.stateSeg.en = false → u.cmdf.sa = false ∧ u.cmdf.sb = false)

/-- R55: what a DECODE leaves in `STATUS`, and on success in `BITS`, `FVAL`, `CMDF`, is a function of the descriptor, the
lock, `RXLEN` and `RAW[0 .. RAWLEN-1]` alone. -/
def Obligations.DecodeDependsOnFrameAlone : Prop :=
  ∀ s s' : State, s'.d = s.d → s'.lock = s.lock → s'.rxlen = s.rxlen →
    (∀ i : SlotIx, i.val < s.d.rawlen.toNat → s'.raw[i] = s.raw[i]) →
    ∃ t t', exec .decode s = .next t ∧ exec .decode s' = .next t' ∧ t'.status = t.status ∧
      (t.status.outValid = true → t'.bits = t.bits ∧ t'.fval = t.fval ∧ t'.cmdf = t.cmdf)

/-- R55: what an ENCODE leaves in `STATUS`, and on success in `RAW[0 .. RAWLEN-1]` and `RXLEN`, is a function of the
descriptor, the lock, `CMDF` and the values of enabled, present fields alone. -/
def Obligations.EncodeDependsOnCommandAlone : Prop :=
  ∀ s s' : State, s'.d = s.d → s'.lock = s.lock → s'.cmdf = s.cmdf →
    (∀ f : FieldIx, Supplied s f → s'.fval[f] = s.fval[f]) →
    ∃ t t', exec .encode s = .next t ∧ exec .encode s' = .next t' ∧ t'.status = t.status ∧
      (t.status.outValid = true → t'.rxlen = t.rxlen ∧
        ∀ i : SlotIx, i.val < s.d.rawlen.toNat → t'.raw[i] = t.raw[i])

/-! ### The host's accesses -/

/-- R62, R63, R68: a read of an aligned word returns the register's value and changes nothing in the block. -/
def Obligations.ReadChangesNothing : Prop :=
  ∀ (s : State) (a : Nat) (rest : List HostEvent), s.host = .regRead .word a :: rest → WholeWord .word a →
    step s = .next { s with host := rest, reads := s.reads ++ [regRead s a] }

/-- R67, U8: an access that is not one aligned word of the register space is refused, and only such an access is. -/
def Obligations.OnlyOutsideAccessesAreRefused : Prop :=
  ∀ (s : State) (w : AccessWidth) (a : Nat) (v : Word) (rest : List HostEvent),
    (s.host = .regRead w a :: rest ∨ s.host = .regWrite w a v :: rest) →
    ((∃ r, step s = .refused r) ↔ ¬ WholeWord w a)

/-- R63: the offsets of the map and the registers correspond one to one. -/
def Obligations.AddressMapIsExact : Prop :=
  (∀ r : Reg, regOfOffset r.offset = some r ∧ WholeWord .word r.offset) ∧
  ∀ (a : Nat) (r : Reg), regOfOffset a = some r → r.offset = a

/-- R63, R64: exactly the listed offsets are unmapped; they read 0 and a write to one is ignored. -/
def Obligations.UnmappedOffsetsAreInert : Prop :=
  ∀ (s : State) (a : Nat) (v : Word) (rest : List HostEvent), WholeWord .word a →
    (regOfOffset a = none ↔ Unmapped a) ∧
    (Unmapped a → regRead s a = 0 ∧
      (s.host = .regWrite .word a v :: rest → step s = .next { s with host := rest }))

/-- R64, R30, R47: writes to `STATUS`, `BITS` and `TXDUR[i]`, and writes to a descriptor register while locked, are
ignored. -/
def Obligations.ProtectedRegistersIgnoreWrites : Prop :=
  ∀ (s : State) (a : Nat) (v : Word) (rest : List HostEvent), s.host = .regWrite .word a v :: rest → 4 ∣ a →
    (a = 0x004 ∨ a = 0x014 ∨ (0x300 ≤ a ∧ a < 0x400) ∨ (s.lock = true ∧ 0x040 ≤ a ∧ a < 0x140)) →
    step s = .next { s with host := rest }

/-- R62, R63, R68: a write to `RXLEN`, `CMDF`, `FVAL[f]` or `RAW[i]` changes that register only, to the bits it has. -/
def Obligations.DataRegisterWriteIsLocal : Prop :=
  ∀ (s : State) (v : Word) (rest : List HostEvent),
    (s.host = .regWrite .word 0x00C v :: rest → step s = .next { s with host := rest, rxlen := v.setWidth 7 }) ∧
    (s.host = .regWrite .word 0x010 v :: rest → ∃ c, step s = .next { s with host := rest, cmdf := c } ∧
      c.present = v.setWidth 4 ∧ c.sa = v.getLsbD 8 ∧ c.sb = v.getLsbD 9) ∧
    (∀ f : FieldIx, s.host = .regWrite .word (0x020 + 4 * f.val) v :: rest →
      ∃ x, step s = .next { s with host := rest, fval := x } ∧ x[f] = v ∧ ∀ g : FieldIx, g ≠ f → x[g] = s.fval[g]) ∧
    (∀ i : SlotIx, s.host = .regWrite .word (0x200 + 4 * i.val) v :: rest →
      ∃ x, step s = .next { s with host := rest, raw := x } ∧ x[i] = v.setWidth 8 ∧
        ∀ j : SlotIx, j ≠ i → x[j] = s.raw[j])

/-- R28, R62, R63, R26: what a read of the command, data and flag registers returns: the register zero-extended, `CMD`
as 0. -/
def Obligations.DataRegistersReadAsHeld : Prop :=
  ∀ s : State,
    regRead s 0x000 = 0 ∧ regRead s 0x00C = s.rxlen.setWidth 32 ∧ regRead s 0x014 = s.bits ∧
    (∀ f : FieldIx, regRead s (0x020 + 4 * f.val) = s.fval[f]) ∧
    (∀ i : SlotIx, regRead s (0x200 + 4 * i.val) = s.raw[i].setWidth 32) ∧
    ∀ i : Nat, (regRead s 0x010).getLsbD i =
      (if i < 4 then s.cmdf.present.getLsbD i else if i = 8 then s.cmdf.sa else if i = 9 then s.cmdf.sb else false)

/-- R31 to R46, R62, R63: which field of the descriptor stands at which offset and in which bits; the bits no field names
read 0. -/
def Obligations.DescriptorRegistersReadAsHeld : Prop :=
  ∀ s : State,
    (regRead s 0x040 = s.d.rawlen.setWidth 32 ∧ regRead s 0x044 = s.d.bitlen.setWidth 32 ∧
      regRead s 0x048 = s.d.tu.setWidth 32 ∧ regRead s 0x04C = s.d.pulse.setWidth 32 ∧
      regRead s 0x050 = s.d.category.setWidth 32 ∧ regRead s 0x058 = s.d.sentinel.setWidth 32) ∧
    ((regRead s 0x054).getLsbD 0 = decide (s.d.mode.order = .reversed) ∧
      (regRead s 0x054).getLsbD 1 = decide (s.d.mode.half = .second) ∧
      (regRead s 0x054).getLsbD 2 = s.d.mode.strictEnum ∧
      (regRead s 0x054).getLsbD 3 = decide (s.d.mode.nomatchScope = .frame) ∧
      (regRead s 0x054).extractLsb' 4 28 = 0) ∧
    (HoldsPair (regRead s 0x05C) s.d.hdr ∧ HoldsPair (regRead s 0x060) s.d.ftr ∧
      HoldsPair (regRead s 0x064) s.d.low ∧ HoldsPair (regRead s 0x068) s.d.high ∧
      HoldsPair (regRead s 0x070) s.d.sa[0] ∧ HoldsPair (regRead s 0x074) s.d.sa[1] ∧
      HoldsPair (regRead s 0x078) s.d.sb[0] ∧ HoldsPair (regRead s 0x07C) s.d.sb[1]) ∧
    ((regRead s 0x06C).getLsbD 0 = s.d.stateSeg.en ∧ (regRead s 0x06C).getLsbD 1 = s.d.stateSeg.w2 ∧
      (regRead s 0x06C).extractLsb' 2 6 = 0 ∧ (regRead s 0x06C).extractLsb' 8 6 = s.d.stateSeg.pos ∧
      (regRead s 0x06C).extractLsb' 14 18 = 0) ∧
    (∀ f : FieldIx,
      (regRead s (0x080 + 16 * f.val)).getLsbD 0 = s.d.f[f].en ∧
      (regRead s (0x080 + 16 * f.val)).getLsbD 1 = decide (s.d.f[f].kind = .enum) ∧
      (regRead s (0x080 + 16 * f.val)).getLsbD 2 = s.d.f[f].req ∧
      (regRead s (0x080 + 16 * f.val)).extractLsb' 3 5 = 0 ∧
      (regRead s (0x080 + 16 * f.val)).extractLsb' 8 6 = s.d.f[f].start ∧
      (regRead s (0x080 + 16 * f.val)).extractLsb' 14 2 = 0 ∧
      (regRead s (0x080 + 16 * f.val)).extractLsb' 16 6 = s.d.f[f].stop ∧
      (regRead s (0x080 + 16 * f.val)).extractLsb' 22 2 = 0 ∧
      (regRead s (0x080 + 16 * f.val)).extractLsb' 24 8 = s.d.f[f].name ∧
      regRead s (0x084 + 16 * f.val) = s.d.f[f].min ∧ regRead s (0x088 + 16 * f.val) = s.d.f[f].max) ∧
    (∀ e : EntryIx,
      (regRead s (0x0C0 + 16 * e.val)).getLsbD 0 = s.d.e[e].valid ∧
      (regRead s (0x0C0 + 16 * e.val)).getLsbD 1 = false ∧
      ((regRead s (0x0C0 + 16 * e.val)).extractLsb' 2 2).toNat = s.d.e[e].field.val ∧
      (regRead s (0x0C0 + 16 * e.val)).extractLsb' 4 28 = 0 ∧
      regRead s (0x0C4 + 16 * e.val) = s.d.e[e].value ∧ regRead s (0x0C8 + 16 * e.val) = s.d.e[e].pattern)

/-- R30, R62, R63: while unlocked, a write to a descriptor register makes a read of it return the written word with the
bits it does not have cleared, leaves every other descriptor register as it was, and changes nothing else. -/
def Obligations.DescriptorWriteReadsBack : Prop :=
  ∀ (s : State) (a b : Nat) (v : Word) (rest : List HostEvent),
    s.host = .regWrite .word a v :: rest → s.lock = false → 4 ∣ a → 0x040 ≤ a → a < 0x140 → ¬ Unmapped a →
    ∃ (d : Descriptor) (mask : Word), step s = .next { s with host := rest, d := d } ∧
      regRead { s with host := rest, d := d } a = v &&& mask ∧
      (0x040 ≤ b → b < 0x140 → b ≠ a → regRead { s with host := rest, d := d } b = regRead s b) ∧
      mask = (if a = 0x040 then 0x7F else if a = 0x044 then 0x3F else if a = 0x048 then 0xFFFF
        else if a = 0x04C ∨ a = 0x050 ∨ a = 0x058 then 0xFF else if a = 0x054 then 0xF
        else if a < 0x06C then 0xFFFF else if a = 0x06C then 0x3F03 else if a < 0x080 then 0xFFFF
        else if a < 0x0C0 then (if a % 16 = 0 then 0xFF3F3F07 else 0xFFFFFFFF)
        else if a % 16 = 0 then 0xD else 0xFFFFFFFF)

/-- spec/10_state.md R47: writing 1 to bit 0 of `CTRL` sets the lock, writing 0 has no effect; nothing else changes. -/
def Obligations.CtrlWriteOnlyLocks : Prop :=
  ∀ (s : State) (v : Word) (rest : List HostEvent), s.host = .regWrite .word 0x008 v :: rest →
    step s = .next { s with host := rest, lock := s.lock || v.getLsbD 0 } ∧
    regRead s 0x008 = if s.lock then 1 else 0

/-- R27, R48, R241: the fields of a read of `STATUS`. The clause on bit 10 (`CFG_OK`) is the model's choice (log 14): R48 (c)
asks `MIN <= MAX` of every enabled field, `DescriptorValid` of enabled NUMERIC fields only. -/
def Obligations.StatusWordLayout : Prop :=
  ∀ s : State,
    ((regRead s 0x004).extractLsb' 0 4).toNat = (match s.status.result with
      | .none => 0 | .ok => 1 | .invalidFrameLength => 2 | .incompleteCommand => 3 | .fieldOutOfRange => 4
      | .ambiguousState => 5 | .unknownEnumeratedValue => 6 | .badDescriptor => 7 | .badCommand => 8) ∧
    ((regRead s 0x004).extractLsb' 4 4).toNat = (match s.status.errField with
      | .field f => f.val | .state => 0xE | .noField => 0xF) ∧
    (regRead s 0x004).getLsbD 8 = s.status.wEnum ∧ (regRead s 0x004).getLsbD 9 = s.status.outValid ∧
    ((regRead s 0x004).getLsbD 10 = true ↔ DescriptorValid s.d) ∧ (regRead s 0x004).getLsbD 11 = s.lock ∧
    (regRead s 0x004).extractLsb' 12 20 = 0

/-- R279: with no access pending the block is idle and its state does not change. -/
def Obligations.IdleWithoutAccess : Prop := ∀ s : State, s.host = [] → step s = .next s

/-- R53, R270: the reset input sets the lock, `STATUS`, `RXLEN`, `CMDF` and every descriptor register to the values the
spec gives; `RAW`, `BITS` and `FVAL` hold some values. That the host's pending events stay is the model's choice (log 4). -/
def Obligations.ResetInputClearsControl : Prop :=
  ∀ (s : State) (rest : List HostEvent), s.host = .assertReset :: rest →
    ∃ t, step s = .next t ∧ t.host = rest ∧ t.lock = false ∧ t.rxlen = 0 ∧
      regRead t 0x004 = 0x000000F0 ∧ regRead t 0x010 = 0 ∧
      (∀ a, 0x040 ≤ a → a < 0x140 → regRead t a = 0) ∧ (∀ i : SlotIx, regRead t (0x300 + 4 * i.val) = 0)

/-- R53: what the state after reset reads: `STATUS` is 0xF0, `CTRL`, `RXLEN`, `CMDF` and every descriptor register 0. -/
def Obligations.ResetStateReadsAsSpecified : Prop :=
  regRead State.reset 0x004 = 0x000000F0 ∧ regRead State.reset 0x008 = 0 ∧ regRead State.reset 0x00C = 0 ∧
  regRead State.reset 0x010 = 0 ∧ (∀ a, 0x040 ≤ a → a < 0x140 → regRead State.reset a = 0) ∧
  ¬ DescriptorValid State.reset.d

/-! ### Rules about the whole machine -/

/-- R47, R72, R270: once locked, every step but the reset input keeps the lock and the descriptor as it is. -/
def Obligations.LockedDescriptorIsImmutable : Prop :=
  ∀ s t : State, s.lock = true → s.host.head? ≠ some .assertReset → step s = .next t → t.lock = true ∧ t.d = s.d

/-- R30, R228: no instruction, command or stage, changes `CTRL` or a descriptor register, or takes a host access. That every
command completes is R281; that a stage executed alone completes on any operands is the model's choice (logs 6 and 13). -/
def Obligations.InstructionsKeepDescriptorAndLock : Prop :=
  ∀ (i : Instr) (s : State), ∃ t, exec i s = .next t ∧ t.d = s.d ∧ t.lock = s.lock ∧ t.host = s.host ∧ t.reads = s.reads

/-- R241, R27: `STATUS` stays sound at every step, from every state in which it is. -/
def Obligations.StatusStaysSound : Prop := ∀ s t : State, StatusSound s → step s = .next t → StatusSound t

/-- R53, R241: `STATUS` is sound after reset. -/
def Obligations.ResetStatusIsSound : Prop := StatusSound State.reset

/-- R281: the block never hangs: every command word written to `CMD`, in every state, gives a next state in which the
access is done. -/
def Obligations.EveryCommandCompletes : Prop :=
  ∀ (s : State) (w : Word) (rest : List HostEvent), s.host = .regWrite .word 0x000 w :: rest →
    ∃ t, step s = .next t ∧ t.host = rest
end

