-- ==== Sys2Proof/Laws/State.lean ====
section
/-!
SUPPORT. What each named update of the state does to each field: one lemma per field per update, true by unfolding.
-/

namespace Sys2Proof.Machine

/-! ### raise -/

@[simp] theorem raise_raw (r : Raise) (s : State) : (raise r s).raw = s.raw := rfl
@[simp] theorem raise_rxlen (r : Raise) (s : State) : (raise r s).rxlen = s.rxlen := rfl
@[simp] theorem raise_bits (r : Raise) (s : State) : (raise r s).bits = s.bits := rfl
@[simp] theorem raise_fval (r : Raise) (s : State) : (raise r s).fval = s.fval := rfl
@[simp] theorem raise_cmdf (r : Raise) (s : State) : (raise r s).cmdf = s.cmdf := rfl
@[simp] theorem raise_status (r : Raise) (s : State) : (raise r s).status = { result := r.code, errField := r.field, wEnum := false, outValid := false } := rfl
@[simp] theorem raise_lock (r : Raise) (s : State) : (raise r s).lock = s.lock := rfl
@[simp] theorem raise_d (r : Raise) (s : State) : (raise r s).d = s.d := rfl
@[simp] theorem raise_host (r : Raise) (s : State) : (raise r s).host = s.host := rfl
@[simp] theorem raise_reads (r : Raise) (s : State) : (raise r s).reads = s.reads := rfl
@[simp] theorem raise_draws (r : Raise) (s : State) : (raise r s).draws = s.draws := rfl
@[simp] theorem raise_stageOut (r : Raise) (s : State) : (raise r s).stageOut = s.stageOut := rfl

/-! ### succeed -/

@[simp] theorem succeed_raw (w : Bool) (s : State) : (succeed w s).raw = s.raw := rfl
@[simp] theorem succeed_rxlen (w : Bool) (s : State) : (succeed w s).rxlen = s.rxlen := rfl
@[simp] theorem succeed_bits (w : Bool) (s : State) : (succeed w s).bits = s.bits := rfl
@[simp] theorem succeed_fval (w : Bool) (s : State) : (succeed w s).fval = s.fval := rfl
@[simp] theorem succeed_cmdf (w : Bool) (s : State) : (succeed w s).cmdf = s.cmdf := rfl
@[simp] theorem succeed_status (w : Bool) (s : State) : (succeed w s).status = { result := .ok, errField := .noField, wEnum := w, outValid := true } := rfl
@[simp] theorem succeed_lock (w : Bool) (s : State) : (succeed w s).lock = s.lock := rfl
@[simp] theorem succeed_d (w : Bool) (s : State) : (succeed w s).d = s.d := rfl
@[simp] theorem succeed_host (w : Bool) (s : State) : (succeed w s).host = s.host := rfl
@[simp] theorem succeed_reads (w : Bool) (s : State) : (succeed w s).reads = s.reads := rfl
@[simp] theorem succeed_draws (w : Bool) (s : State) : (succeed w s).draws = s.draws := rfl
@[simp] theorem succeed_stageOut (w : Bool) (s : State) : (succeed w s).stageOut = s.stageOut := rfl

/-! ### unspecifyBits -/

@[simp] theorem unspecifyBits_raw (s : State) : (unspecifyBits s).raw = s.raw := rfl
@[simp] theorem unspecifyBits_rxlen (s : State) : (unspecifyBits s).rxlen = s.rxlen := rfl
@[simp] theorem unspecifyBits_bits (s : State) : (unspecifyBits s).bits = Config.freeWord s.draws := rfl
@[simp] theorem unspecifyBits_fval (s : State) : (unspecifyBits s).fval = s.fval := rfl
@[simp] theorem unspecifyBits_cmdf (s : State) : (unspecifyBits s).cmdf = s.cmdf := rfl
@[simp] theorem unspecifyBits_status (s : State) : (unspecifyBits s).status = s.status := rfl
@[simp] theorem unspecifyBits_lock (s : State) : (unspecifyBits s).lock = s.lock := rfl
@[simp] theorem unspecifyBits_d (s : State) : (unspecifyBits s).d = s.d := rfl
@[simp] theorem unspecifyBits_host (s : State) : (unspecifyBits s).host = s.host := rfl
@[simp] theorem unspecifyBits_reads (s : State) : (unspecifyBits s).reads = s.reads := rfl
@[simp] theorem unspecifyBits_draws (s : State) : (unspecifyBits s).draws = s.draws + 1 := rfl
@[simp] theorem unspecifyBits_stageOut (s : State) : (unspecifyBits s).stageOut = s.stageOut := rfl

/-! ### unspecifyCommand -/

@[simp] theorem unspecifyCommand_raw (s : State) : (unspecifyCommand s).raw = s.raw := rfl
@[simp] theorem unspecifyCommand_rxlen (s : State) : (unspecifyCommand s).rxlen = s.rxlen := rfl
@[simp] theorem unspecifyCommand_bits (s : State) : (unspecifyCommand s).bits = Config.freeWord s.draws := rfl
@[simp] theorem unspecifyCommand_fval (s : State) : (unspecifyCommand s).fval = freeFval (s.draws + 1) := rfl
@[simp] theorem unspecifyCommand_cmdf (s : State) : (unspecifyCommand s).cmdf = cmdfOfWord (Config.freeWord (s.draws + 5)) := rfl
@[simp] theorem unspecifyCommand_status (s : State) : (unspecifyCommand s).status = s.status := rfl
@[simp] theorem unspecifyCommand_lock (s : State) : (unspecifyCommand s).lock = s.lock := rfl
@[simp] theorem unspecifyCommand_d (s : State) : (unspecifyCommand s).d = s.d := rfl
@[simp] theorem unspecifyCommand_host (s : State) : (unspecifyCommand s).host = s.host := rfl
@[simp] theorem unspecifyCommand_reads (s : State) : (unspecifyCommand s).reads = s.reads := rfl
@[simp] theorem unspecifyCommand_draws (s : State) : (unspecifyCommand s).draws = s.draws + 6 := rfl
@[simp] theorem unspecifyCommand_stageOut (s : State) : (unspecifyCommand s).stageOut = s.stageOut := rfl

/-! ### resetInput -/

@[simp] theorem resetInput_raw (s : State) : (resetInput s).raw = freeRaw s.draws := rfl
@[simp] theorem resetInput_rxlen (s : State) : (resetInput s).rxlen = 0 := rfl
@[simp] theorem resetInput_bits (s : State) : (resetInput s).bits = Config.freeWord (s.draws + 64) := rfl
@[simp] theorem resetInput_fval (s : State) : (resetInput s).fval = freeFval (s.draws + 65) := rfl
@[simp] theorem resetInput_cmdf (s : State) : (resetInput s).cmdf = resetCmdf := rfl
@[simp] theorem resetInput_status (s : State) : (resetInput s).status = resetStatus := rfl
@[simp] theorem resetInput_lock (s : State) : (resetInput s).lock = false := rfl
@[simp] theorem resetInput_d (s : State) : (resetInput s).d = zeroDescriptor := rfl
@[simp] theorem resetInput_host (s : State) : (resetInput s).host = s.host := rfl
@[simp] theorem resetInput_reads (s : State) : (resetInput s).reads = s.reads := rfl
@[simp] theorem resetInput_draws (s : State) : (resetInput s).draws = s.draws + 69 := rfl
@[simp] theorem resetInput_stageOut (s : State) : (resetInput s).stageOut = .none := rfl

/-! ### yieldStage -/

@[simp] theorem yieldStage_raw (o : StageOut) (s : State) : (yieldStage o s).raw = s.raw := rfl
@[simp] theorem yieldStage_rxlen (o : StageOut) (s : State) : (yieldStage o s).rxlen = s.rxlen := rfl
@[simp] theorem yieldStage_bits (o : StageOut) (s : State) : (yieldStage o s).bits = s.bits := rfl
@[simp] theorem yieldStage_fval (o : StageOut) (s : State) : (yieldStage o s).fval = s.fval := rfl
@[simp] theorem yieldStage_cmdf (o : StageOut) (s : State) : (yieldStage o s).cmdf = s.cmdf := rfl
@[simp] theorem yieldStage_status (o : StageOut) (s : State) : (yieldStage o s).status = s.status := rfl
@[simp] theorem yieldStage_lock (o : StageOut) (s : State) : (yieldStage o s).lock = s.lock := rfl
@[simp] theorem yieldStage_d (o : StageOut) (s : State) : (yieldStage o s).d = s.d := rfl
@[simp] theorem yieldStage_host (o : StageOut) (s : State) : (yieldStage o s).host = s.host := rfl
@[simp] theorem yieldStage_reads (o : StageOut) (s : State) : (yieldStage o s).reads = s.reads := rfl
@[simp] theorem yieldStage_draws (o : StageOut) (s : State) : (yieldStage o s).draws = s.draws := rfl
@[simp] theorem yieldStage_stageOut (o : StageOut) (s : State) : (yieldStage o s).stageOut = o := rfl

/-! ### raiseStage -/

@[simp] theorem raiseStage_raw (r : Raise) (s : State) : (raiseStage r s).raw = s.raw := rfl
@[simp] theorem raiseStage_rxlen (r : Raise) (s : State) : (raiseStage r s).rxlen = s.rxlen := rfl
@[simp] theorem raiseStage_bits (r : Raise) (s : State) : (raiseStage r s).bits = s.bits := rfl
@[simp] theorem raiseStage_fval (r : Raise) (s : State) : (raiseStage r s).fval = s.fval := rfl
@[simp] theorem raiseStage_cmdf (r : Raise) (s : State) : (raiseStage r s).cmdf = s.cmdf := rfl
@[simp] theorem raiseStage_status (r : Raise) (s : State) : (raiseStage r s).status = { result := r.code, errField := r.field, wEnum := false, outValid := false } := rfl
@[simp] theorem raiseStage_lock (r : Raise) (s : State) : (raiseStage r s).lock = s.lock := rfl
@[simp] theorem raiseStage_d (r : Raise) (s : State) : (raiseStage r s).d = s.d := rfl
@[simp] theorem raiseStage_host (r : Raise) (s : State) : (raiseStage r s).host = s.host := rfl
@[simp] theorem raiseStage_reads (r : Raise) (s : State) : (raiseStage r s).reads = s.reads := rfl
@[simp] theorem raiseStage_draws (r : Raise) (s : State) : (raiseStage r s).draws = s.draws := rfl
@[simp] theorem raiseStage_stageOut (r : Raise) (s : State) : (raiseStage r s).stageOut = .raised r := rfl

/-! ### commitDecode -/

@[simp] theorem commitDecode_raw (b : BitsVec) (c : Interpreted) (s : State) : (commitDecode b c s).raw = s.raw := rfl
@[simp] theorem commitDecode_rxlen (b : BitsVec) (c : Interpreted) (s : State) : (commitDecode b c s).rxlen = s.rxlen := rfl
@[simp] theorem commitDecode_bits (b : BitsVec) (c : Interpreted) (s : State) : (commitDecode b c s).bits = b := rfl
@[simp] theorem commitDecode_fval (b : BitsVec) (c : Interpreted) (s : State) : (commitDecode b c s).fval = c.val := rfl
@[simp] theorem commitDecode_cmdf (b : BitsVec) (c : Interpreted) (s : State) : (commitDecode b c s).cmdf = { present := c.present, sa := c.sa, sb := c.sb } := rfl
@[simp] theorem commitDecode_status (b : BitsVec) (c : Interpreted) (s : State) : (commitDecode b c s).status = { result := .ok, errField := .noField, wEnum := c.wEnum, outValid := true } := rfl
@[simp] theorem commitDecode_lock (b : BitsVec) (c : Interpreted) (s : State) : (commitDecode b c s).lock = s.lock := rfl
@[simp] theorem commitDecode_d (b : BitsVec) (c : Interpreted) (s : State) : (commitDecode b c s).d = s.d := rfl
@[simp] theorem commitDecode_host (b : BitsVec) (c : Interpreted) (s : State) : (commitDecode b c s).host = s.host := rfl
@[simp] theorem commitDecode_reads (b : BitsVec) (c : Interpreted) (s : State) : (commitDecode b c s).reads = s.reads := rfl
@[simp] theorem commitDecode_draws (b : BitsVec) (c : Interpreted) (s : State) : (commitDecode b c s).draws = s.draws := rfl
@[simp] theorem commitDecode_stageOut (b : BitsVec) (c : Interpreted) (s : State) : (commitDecode b c s).stageOut = s.stageOut := rfl

/-! ### commitEncode -/

@[simp] theorem commitEncode_raw (v : Validated) (s : State) : (commitEncode v s).raw = build s.d s.cmdf s.fval v.found s.raw := rfl
@[simp] theorem commitEncode_rxlen (v : Validated) (s : State) : (commitEncode v s).rxlen = s.d.rawlen := rfl
@[simp] theorem commitEncode_bits (v : Validated) (s : State) : (commitEncode v s).bits = Config.freeWord s.draws := rfl
@[simp] theorem commitEncode_fval (v : Validated) (s : State) : (commitEncode v s).fval = s.fval := rfl
@[simp] theorem commitEncode_cmdf (v : Validated) (s : State) : (commitEncode v s).cmdf = s.cmdf := rfl
@[simp] theorem commitEncode_status (v : Validated) (s : State) : (commitEncode v s).status = { result := .ok, errField := .noField, wEnum := v.wEnum, outValid := true } := rfl
@[simp] theorem commitEncode_lock (v : Validated) (s : State) : (commitEncode v s).lock = s.lock := rfl
@[simp] theorem commitEncode_d (v : Validated) (s : State) : (commitEncode v s).d = s.d := rfl
@[simp] theorem commitEncode_host (v : Validated) (s : State) : (commitEncode v s).host = s.host := rfl
@[simp] theorem commitEncode_reads (v : Validated) (s : State) : (commitEncode v s).reads = s.reads := rfl
@[simp] theorem commitEncode_draws (v : Validated) (s : State) : (commitEncode v s).draws = s.draws + 1 := rfl
@[simp] theorem commitEncode_stageOut (v : Validated) (s : State) : (commitEncode v s).stageOut = s.stageOut := rfl

/-! ### dropEvent -/

@[simp] theorem dropEvent_raw (s : State) : (dropEvent s).raw = s.raw := rfl
@[simp] theorem dropEvent_rxlen (s : State) : (dropEvent s).rxlen = s.rxlen := rfl
@[simp] theorem dropEvent_bits (s : State) : (dropEvent s).bits = s.bits := rfl
@[simp] theorem dropEvent_fval (s : State) : (dropEvent s).fval = s.fval := rfl
@[simp] theorem dropEvent_cmdf (s : State) : (dropEvent s).cmdf = s.cmdf := rfl
@[simp] theorem dropEvent_status (s : State) : (dropEvent s).status = s.status := rfl
@[simp] theorem dropEvent_lock (s : State) : (dropEvent s).lock = s.lock := rfl
@[simp] theorem dropEvent_d (s : State) : (dropEvent s).d = s.d := rfl
@[simp] theorem dropEvent_host (s : State) : (dropEvent s).host = s.host.tail := rfl
@[simp] theorem dropEvent_reads (s : State) : (dropEvent s).reads = s.reads := rfl
@[simp] theorem dropEvent_draws (s : State) : (dropEvent s).draws = s.draws := rfl
@[simp] theorem dropEvent_stageOut (s : State) : (dropEvent s).stageOut = s.stageOut := rfl

/-! ### Unspecified contents -/

@[simp] theorem freeRaw_getElem (n : Nat) (i : SlotIx) : (freeRaw n)[i] = (Config.freeWord (n + i.val)).setWidth 8 := by
  simp [freeRaw]

@[simp] theorem freeFval_getElem (n : Nat) (f : FieldIx) : (freeFval n)[f] = Config.freeWord (n + f.val) := by
  simp [freeFval]

end Sys2Proof.Machine
end

