-- ==== Sys2Proof/Laws/Operands.lean ====
section
/-!
SUPPORT. The operand forms, each said once: bit indices, widths, minimal lengths, layout and table searches, and the
numbers that weighted bit sums are.
-/

namespace Sys2Proof.Machine

theorem bitAt_of_lt (b : BitsVec) {i : Nat} (h : i < 32) : bitAt b i = b.getLsbD i := by
  simp [bitAt, h]

theorem patternBit_of_lt (p : BitsVec) {j : Nat} (h : j < 32) : patternBit p j = p.getLsbD j := by
  simp [patternBit, h]

theorem fieldWidth_eq_bits {x : FieldEntry} (h : x.start.toNat ≤ x.stop.toNat) : fieldWidth x = x.bits := by
  simp only [fieldWidth, FieldEntry.bits]; omega

/-- A field of at most 32 bits stores its sum as it is. -/
theorem fieldValue_of_le {x : FieldEntry} (h : fieldWidth x ≤ 32) (sum : Nat) :
    fieldValue x sum = BitVec.ofNat 32 sum := by
  rw [fieldValue, Config.valW, if_pos h]

theorem stateWidth_eq_pairs (x : StateSeg) : stateWidth x = x.pairs := by
  cases h : x.w2 <;> simp [stateWidth, StateSeg.pairs, h]

/-! ### bitlen -/

/-- A value fits `n` bits exactly when its minimal form is no longer (spec/00_scope.md R14). -/
theorem bitlen_le_iff (v : Val) (n : Nat) : bitlen v ≤ n ↔ v.toNat < 2 ^ n := by
  unfold bitlen
  split
  · rename_i h; simp [h]
  · rename_i h
    rw [← Nat.log2_lt h]; omega

theorem lt_bitlen_iff (v : Val) (n : Nat) : n < bitlen v ↔ 2 ^ n ≤ v.toNat := by
  rw [← Nat.not_le, bitlen_le_iff, Nat.not_lt]

theorem getLsbD_eq_false_of_lt {v : Val} {n k : Nat} (hv : v.toNat < 2 ^ n) (hk : n ≤ k) : v.getLsbD k = false :=
  Nat.testBit_lt_two_pow (Nat.lt_of_lt_of_le hv (Nat.pow_le_pow_right (by omega) hk))

theorem lt_bitlen_of_getLsbD {v : Val} {k : Nat} (h : v.getLsbD k = true) : k < bitlen v := by
  by_contra hk
  have := getLsbD_eq_false_of_lt ((bitlen_le_iff v k).1 (by omega)) (Nat.le_refl k)
  simp [this] at h

/-! ### Searches in layout order and index order -/

theorem allFields_eq : allFields = List.finRange 4 := by decide

theorem allEntries_eq : allEntries = List.finRange 8 := by decide

theorem mem_allFields (f : FieldIx) : f ∈ allFields := by rw [allFields_eq]; exact List.mem_finRange f

theorem finRange_find?_eq_some {n : Nat} (p : Fin n → Bool) (f : Fin n) :
    (List.finRange n).find? p = some f ↔ p f = true ∧ ∀ g, g < f → p g = false := by
  simpa [List.ofFn_id] using
    List.find?_ofFn_eq_some_of_injective (f := (id : Fin n → Fin n)) (p := p) (i := f) Function.injective_id

theorem allFields_find?_eq_some (p : FieldIx → Bool) (f : FieldIx) :
    allFields.find? p = some f ↔ p f = true ∧ ∀ g, g < f → p g = false := by
  rw [allFields_eq]; exact finRange_find?_eq_some p f

theorem allFields_find?_eq_none (p : FieldIx → Bool) : allFields.find? p = none ↔ ∀ f, p f = false := by
  rw [allFields_eq]; simp

theorem allEntries_find?_eq_some (p : EntryIx → Bool) (e : EntryIx) :
    allEntries.find? p = some e ↔ p e = true ∧ ∀ g, g < e → p g = false := by
  rw [allEntries_eq]; exact finRange_find?_eq_some p e

theorem allEntries_find?_eq_none (p : EntryIx → Bool) : allEntries.find? p = none ↔ ∀ e, p e = false := by
  rw [allEntries_eq]; simp

theorem allFields_any (p : FieldIx → Bool) : allFields.any p = true ↔ ∃ f, p f = true := by
  rw [allFields_eq]; simp

theorem allFields_all (p : FieldIx → Bool) : allFields.all p = true ↔ ∀ f, p f = true := by
  rw [allFields_eq]; simp

theorem allEntries_all (p : EntryIx → Bool) : allEntries.all p = true ↔ ∀ e, p e = true := by
  rw [allEntries_eq]; simp

/-! ### Table look-ups -/

theorem entryByValue_eq_some (d : Descriptor) (f : FieldIx) (v : Val) (e : EntryIx) :
    entryByValue d f v = some e ↔ EntryFor d f v e ∧ ∀ g, g < e → ¬ EntryFor d f v g := by
  rw [entryByValue, allEntries_find?_eq_some]
  simp [EntryFor, and_assoc]

theorem entryByValue_isNone (d : Descriptor) (f : FieldIx) (v : Val) :
    (entryByValue d f v).isNone = true ↔ ∀ e, ¬ EntryFor d f v e := by
  rw [Option.isNone_iff_eq_none, entryByValue, allEntries_find?_eq_none]
  simp [EntryFor]

theorem patternMatches_iff {p b : BitsVec} {s w : Nat} (hs : s + w ≤ 32) :
    patternMatches p b s w = true ↔ ∀ j < w, p.getLsbD j = b.getLsbD (s + j) := by
  simp only [patternMatches, List.all_eq_true, List.mem_range, beq_iff_eq]
  refine forall₂_congr fun j hj => ?_
  rw [patternBit_of_lt p (by omega), bitAt_of_lt b (by omega)]

/-- Entry `e` is valid, belongs to field `f`, and its pattern stands in the field (spec/41_field_mapper.md R155). -/
abbrev PatternStands (d : Descriptor) (f : FieldIx) (b : BitsVec) (e : EntryIx) : Prop :=
  d.e[e].valid = true ∧ d.e[e].field = f ∧
    ∀ j < d.f[f].bits, d.e[e].pattern.getLsbD j = b.getLsbD (d.f[f].start.toNat + j)

theorem entryByPattern_test {d : Descriptor} {f : FieldIx} (b : BitsVec) (h : d.f[f].start.toNat ≤ d.f[f].stop.toNat)
    (h' : d.f[f].stop.toNat < 32) (e : EntryIx) :
    (d.e[e].valid && d.e[e].field == f && patternMatches d.e[e].pattern b d.f[f].start.toNat (fieldWidth d.f[f])) = true
      ↔ PatternStands d f b e := by
  rw [fieldWidth_eq_bits h]
  have hb : d.f[f].start.toNat + d.f[f].bits ≤ 32 := by simp only [FieldEntry.bits]; omega
  simp only [Bool.and_eq_true, beq_iff_eq, patternMatches_iff hb, PatternStands, and_assoc]

theorem entryByPattern_eq_some {d : Descriptor} {f : FieldIx} (b : BitsVec)
    (h : d.f[f].start.toNat ≤ d.f[f].stop.toNat) (h' : d.f[f].stop.toNat < 32) (e : EntryIx) :
    entryByPattern d f b = some e ↔ PatternStands d f b e ∧ ∀ g, g < e → ¬ PatternStands d f b g := by
  rw [entryByPattern, allEntries_find?_eq_some, entryByPattern_test b h h']
  refine and_congr_right fun _ => forall₂_congr fun g _ => ?_
  rw [← entryByPattern_test b h h' g, Bool.not_eq_true]

theorem entryByPattern_eq_none {d : Descriptor} {f : FieldIx} (b : BitsVec)
    (h : d.f[f].start.toNat ≤ d.f[f].stop.toNat) (h' : d.f[f].stop.toNat < 32) :
    entryByPattern d f b = none ↔ ∀ e, ¬ PatternStands d f b e := by
  rw [entryByPattern, allEntries_find?_eq_none]
  refine forall_congr' fun e => ?_
  rw [← entryByPattern_test b h h' e, Bool.not_eq_true]

/-! ### Weighted bit sums -/

theorem weightedSum_lt (g : Nat → Bool) (w : Nat) :
    ((List.range w).map fun k => (g k).toNat * 2 ^ k).sum < 2 ^ w := by
  induction w with
  | zero => simp
  | succ w ih =>
    rw [List.range_succ, List.map_append, List.sum_append]
    have : (g w).toNat ≤ 1 := Bool.toNat_le (g w)
    have h2 : (g w).toNat * 2 ^ w ≤ 1 * 2 ^ w := Nat.mul_le_mul_right _ this
    simp only [List.map_cons, List.map_nil, List.sum_cons, List.sum_nil, Nat.pow_succ]
    omega

/-- A sum of bits weighted from 0 up is the number whose bits they are. -/
theorem weightedSum_testBit (g : Nat → Bool) (w j : Nat) :
    (((List.range w).map fun k => (g k).toNat * 2 ^ k).sum).testBit j = (decide (j < w) && g j) := by
  induction w with
  | zero => simp
  | succ w ih =>
    rw [List.range_succ, List.map_append, List.sum_append]
    simp only [List.map_cons, List.map_nil, List.sum_cons, List.sum_nil, Nat.add_zero]
    rw [Nat.add_comm, Nat.mul_comm, Nat.testBit_two_pow_mul_add _ (weightedSum_lt g w), ih]
    by_cases hj : j < w
    · simp [hj, Nat.lt_succ_of_lt hj]
    · rw [if_neg hj]
      by_cases hw : j = w
      · subst hw; cases g j <;> simp
      · have : ¬ j < w + 1 := by omega
        simp only [this, decide_false, Bool.false_and]
        have hlt : (g w).toNat < 2 ^ (j - w) := by
          have := Bool.toNat_le (g w)
          have : 2 ^ 1 ≤ 2 ^ (j - w) := Nat.pow_le_pow_right (by omega) (by omega)
          omega
        exact Nat.testBit_lt_two_pow hlt

theorem sum_map_range_reflect (g : Nat → Nat) (w : Nat) :
    ((List.range w).map fun k => g (w - 1 - k)).sum = ((List.range w).map g).sum := by
  have := Finset.sum_range_reflect g w
  simpa [Finset.sum, Finset.range, Multiset.range] using this

end Sys2Proof.Machine
end

