-- ==== Sys2Proof/Laws/Stages.lean ====
section
/-!
SUPPORT. What each stage function computes: the sampler, the field mapper, the validator's tests, the descriptor check.
-/

namespace Sys2Proof.Machine

/-! ### The sampler -/

theorem sample_eq_true (d : Descriptor) (p : Pair) : sample d p = true ↔ Sampled d p := by
  rw [sample, beq_iff_eq]
  cases h : d.mode.half <;> simp only [sampledSlot, Sampled, h]

theorem sample_eq_decide (d : Descriptor) (p : Pair) : sample d p = decide (Sampled d p) := by
  rw [Bool.eq_iff_iff, sample_eq_true, decide_eq_true_iff]

theorem sampleBits_getLsbD (d : Descriptor) (raw : RawBuf) (i : Fin 32) :
    (sampleBits d raw).getLsbD i.val = (decide (i.val < d.bitlen.toNat) && sample d (rawPair raw i)) := by
  rw [BitVec.getLsbD_eq_getElem i.isLt]; simp [sampleBits]

theorem sample_rawPair (d : Descriptor) (raw : RawBuf) (i : Fin 32) :
    sample d (rawPair raw i) = true ↔ raw[sampledSlotIx d i.val]? = some d.sentinel := by
  rw [sample_eq_true]
  have h0 : 2 * i.val < 64 := by omega
  have h1 : 2 * i.val + 1 < 64 := by omega
  cases h : d.mode.half <;> simp [Sampled, sampledSlotIx, h, rawPair, h0, h1]

theorem extract_ok {s : State} (h : s.rxlen = s.d.rawlen) : extract s = .ok (sampleBits s.d s.raw) := by
  simp [extract, h]

theorem extract_error {s : State} (h : s.rxlen ≠ s.d.rawlen) :
    extract s = .error { code := .invalidFrameLength, field := .noField } := by
  simp [extract, h]

/-! ### The field mapper, decode direction -/

theorem fieldWidth_le {x : FieldEntry} (h : x.stop.toNat < 32) : fieldWidth x ≤ 32 := by
  rw [fieldWidth]; omega

theorem interpretNumReversed_getLsbD {x : FieldEntry} (b : BitsVec) (k : Nat) (h : x.start.toNat ≤ x.stop.toNat)
    (h' : x.stop.toNat < 32) :
    (interpretNumReversed x b).getLsbD k = (decide (k < x.bits) && b.getLsbD (x.start.toNat + k)) := by
  rw [interpretNumReversed, fieldValue_of_le (fieldWidth_le h'), BitVec.getLsbD_ofNat, weightedSum_testBit, fieldWidth_eq_bits h]
  by_cases hk : k < x.bits
  · have : x.start.toNat + k < 32 := by simp only [FieldEntry.bits] at hk; omega
    have : k < 32 := by omega
    simp [*, bitAt_of_lt]
  · simp [hk]

theorem interpretNumNatural_eq_weightedSum {x : FieldEntry} (b : BitsVec) (h : x.start.toNat ≤ x.stop.toNat)
    (h' : x.stop.toNat < 32) :
    interpretNumNatural x b = BitVec.ofNat 32
      (((List.range x.bits).map fun k => (bitAt b (x.stop.toNat - k)).toNat * 2 ^ k).sum) := by
  rw [interpretNumNatural, fieldValue_of_le (fieldWidth_le h'), fieldWidth_eq_bits h, ← sum_map_range_reflect]
  congr 2
  apply List.map_congr_left
  intro k hk
  have hk : k < x.bits := List.mem_range.1 hk
  simp only [FieldEntry.bits] at *
  have h1 : x.start.toNat + (x.stop.toNat - x.start.toNat + 1 - 1 - k) = x.stop.toNat - k := by omega
  have h2 : x.stop.toNat - (x.stop.toNat - k) = k := by omega
  rw [h1, h2]

theorem interpretNumNatural_getLsbD {x : FieldEntry} (b : BitsVec) (k : Nat) (h : x.start.toNat ≤ x.stop.toNat)
    (h' : x.stop.toNat < 32) :
    (interpretNumNatural x b).getLsbD k = (decide (k < x.bits) && b.getLsbD (x.stop.toNat - k)) := by
  rw [interpretNumNatural_eq_weightedSum b h h', BitVec.getLsbD_ofNat, weightedSum_testBit]
  by_cases hk : k < x.bits
  · have : x.stop.toNat - k < 32 := by omega
    have : k < 32 := by simp only [FieldEntry.bits] at hk; omega
    simp [*, bitAt_of_lt]
  · simp [hk]

theorem stateMatches_iff {d : Descriptor} (p : Vector Pair 2) (b : BitsVec)
    (h : d.stateSeg.pos.toNat + d.stateSeg.pairs ≤ 32) :
    stateMatches d p b = true ↔ StatePatternStands d p b := by
  have h0 : d.stateSeg.pos.toNat < 32 := by simp only [StateSeg.pairs] at h; omega
  have hb : ∀ (x : Bool) (q : Pair), (x == sample d q) = true ↔ (x = true ↔ Sampled d q) := by
    intro x q; rw [← sample_eq_true d q, beq_iff_eq, Bool.eq_iff_iff]
  rw [stateMatches, bitAt_of_lt b h0, Bool.and_eq_true, Bool.or_eq_true, Bool.not_eq_true', hb, hb]
  cases hw : d.stateSeg.w2
  · simp [StatePatternStands, StateSeg.pairs, hw]
  · have h1 : d.stateSeg.pos.toNat + 1 < 32 := by simp [StateSeg.pairs, hw] at h; omega
    simp [StatePatternStands, StateSeg.pairs, hw, Fin.forall_fin_two, bitAt_of_lt b h1]

@[simp] theorem interpret_val (d : Descriptor) (b : BitsVec) (f : FieldIx) :
    (interpret d b).val[f] = (interpretField d b f).getD 0 := by
  simp [interpret]

@[simp] theorem interpret_present (d : Descriptor) (b : BitsVec) (f : FieldIx) :
    (interpret d b).present.getLsbD f.val = (interpretField d b f).isSome := by
  rw [BitVec.getLsbD_eq_getElem f.isLt]; simp [interpret]

theorem interpretField_disabled {d : Descriptor} {f : FieldIx} (b : BitsVec) (h : d.f[f].en = false) :
    interpretField d b f = none := by
  simp only [interpretField, h, Bool.false_eq_true, if_false]

theorem interpretField_numeric {d : Descriptor} {f : FieldIx} (b : BitsVec) (h : d.f[f].en = true)
    (hk : d.f[f].kind = .numeric) : interpretField d b f = some (interpretNum d d.f[f] b) := by
  simp only [interpretField, h, hk, if_true]

theorem interpretField_enum {d : Descriptor} {f : FieldIx} (b : BitsVec) (h : d.f[f].en = true)
    (hk : d.f[f].kind = .enum) : interpretField d b f = interpretEnum d f b := by
  simp only [interpretField, h, hk, if_true]

/-! ### The field mapper, encode direction -/

theorem mem_renderNum_reversed {d : Descriptor} (x : FieldEntry) (v : Val) (i : Nat) (ho : d.mode.order = .reversed) :
    i ∈ renderNum d x v ↔ ∃ k, v.getLsbD k = true ∧ i = x.start.toNat + k := by
  simp only [renderNum, ho, List.mem_map, List.mem_filter, List.mem_range]
  constructor
  · rintro ⟨k, ⟨-, hv⟩, rfl⟩; exact ⟨k, hv, rfl⟩
  · rintro ⟨k, hv, rfl⟩; exact ⟨k, ⟨lt_bitlen_of_getLsbD hv, hv⟩, rfl⟩

theorem mem_renderNum_natural {d : Descriptor} {x : FieldEntry} {v : Val} (i : Nat) (ho : d.mode.order = .natural) :
    i ∈ renderNum d x v ↔ ∃ k, v.getLsbD k = true ∧ i + k = x.stop.toNat := by
  simp only [renderNum, ho, List.mem_map, List.mem_filter, List.mem_range, Bool.and_eq_true, decide_eq_true_eq]
  constructor
  · rintro ⟨k, ⟨-, hv, hk⟩, rfl⟩; exact ⟨k, hv, by omega⟩
  · rintro ⟨k, hv, hk⟩; exact ⟨k, ⟨lt_bitlen_of_getLsbD hv, hv, by omega⟩, by omega⟩

/-- A value that fits its field is rendered inside the field, in both orders (spec/41_field_mapper.md R160). -/
theorem renderNum_covers {d : Descriptor} {x : FieldEntry} {v : Val} {i : Nat} (h : x.start.toNat ≤ x.stop.toNat)
    (hv : v.toNat < 2 ^ x.bits) (hi : i ∈ renderNum d x v) : x.Covers i := by
  have key : ∀ k, v.getLsbD k = true → k < x.bits := by
    intro k hk
    by_contra hc
    rw [getLsbD_eq_false_of_lt hv (by omega)] at hk
    cases hk
  cases ho : d.mode.order
  · obtain ⟨k, hk, e⟩ := (mem_renderNum_natural i ho).1 hi
    have := key k hk
    simp only [FieldEntry.Covers, FieldEntry.bits] at *; omega
  · obtain ⟨k, hk, e⟩ := (mem_renderNum_reversed x v i ho).1 hi
    have := key k hk
    simp only [FieldEntry.Covers, FieldEntry.bits] at *; omega

theorem mem_renderEnum {d : Descriptor} {x : FieldEntry} (e : EntryIx) (i : Nat) (h : x.start.toNat ≤ x.stop.toNat)
    (h' : x.bits ≤ 32) :
    i ∈ renderEnum d x e ↔ ∃ j < x.bits, d.e[e].pattern.getLsbD j = true ∧ i = x.start.toNat + j := by
  simp only [renderEnum, fieldWidth_eq_bits h, List.mem_map, List.mem_filter, List.mem_range]
  constructor
  · rintro ⟨j, ⟨hj, hp⟩, rfl⟩; exact ⟨j, hj, by rwa [patternBit_of_lt _ (by omega)] at hp, rfl⟩
  · rintro ⟨j, hj, hp, rfl⟩; exact ⟨j, ⟨hj, by rwa [patternBit_of_lt _ (by omega)]⟩, rfl⟩

theorem renderEnum_covers {d : Descriptor} {x : FieldEntry} {e : EntryIx} {i : Nat} (h : x.start.toNat ≤ x.stop.toNat)
    (h' : x.bits ≤ 32) (hi : i ∈ renderEnum d x e) : x.Covers i := by
  obtain ⟨j, hj, -, rfl⟩ := (mem_renderEnum e i h h').1 hi
  simp only [FieldEntry.Covers, FieldEntry.bits] at *; omega

/-! ### The descriptor check -/

theorem cfgField_iff (d : Descriptor) (x : FieldEntry) : cfgField d x = true ↔
    (x.start.toNat ≤ x.stop.toNat ∧ x.stop.toNat < d.bitlen.toNat ∧ x.bits ≤ 32 ∧
      (x.kind = .numeric → x.min.toNat ≤ x.max.toNat)) := by
  have hk : (x.kind == .enum || decide (x.min.toNat ≤ x.max.toNat)) = true ↔
      (x.kind = .numeric → x.min.toNat ≤ x.max.toNat) := by cases x.kind <;> simp
  simp only [cfgField, Bool.and_eq_true, decide_eq_true_iff, hk, and_assoc, Config.valW]
  refine and_congr_right fun h => and_congr_right fun _ => ?_
  rw [fieldWidth_eq_bits h]

theorem not_or_eq_true (a b : Bool) : (!a || b) = true ↔ (a = true → b = true) := by cases a <;> simp

/-- `CFG_OK` is the conjunction of R48. -/
theorem cfgOk_iff (d : Descriptor) : cfgOk d = true ↔ DescriptorValid d := by
  simp only [cfgOk, cfgRawlen, cfgBitlen, cfgState, cfgEntry, Bool.and_eq_true, not_or_eq_true, allFields_all,
    allEntries_all, decide_eq_true_iff, beq_iff_eq, cfgField_iff, Config.rawMax, stateWidth_eq_pairs, and_assoc,
    DescriptorValid, Nat.dvd_iff_mod_eq_zero]

/-- A valid descriptor keeps every enabled range inside the frame (the reason R48 gives for its conditions). -/
theorem DescriptorValid.field {d : Descriptor} (h : DescriptorValid d) {f : FieldIx} (hf : d.f[f].en = true) :
    d.f[f].start.toNat ≤ d.f[f].stop.toNat ∧ d.f[f].stop.toNat < d.rawlen.toNat / 2 ∧ d.f[f].stop.toNat < 32 ∧
      d.f[f].bits ≤ 32 := by
  obtain ⟨⟨-, -, h1⟩, h2, h3, -, -⟩ := h
  obtain ⟨h4, h5, h6, -⟩ := h3 f hf
  exact ⟨h4, by omega, by omega, h6⟩

theorem DescriptorValid.state {d : Descriptor} (h : DescriptorValid d) (hs : d.stateSeg.en = true) :
    d.stateSeg.pos.toNat + d.stateSeg.pairs ≤ d.rawlen.toNat / 2 ∧
      d.stateSeg.pos.toNat + d.stateSeg.pairs ≤ 32 := by
  obtain ⟨⟨-, -, h1⟩, h2, -, h4, -⟩ := h
  have := h4 hs
  omega

/-! ### The validator's tests -/

theorem supplied_iff (s : State) (f : FieldIx) : supplied s.d s.cmdf f = true ↔ Supplied s f := by
  simp [supplied, Supplied]

theorem missingField_iff (s : State) (f : FieldIx) : missingField s.d s.cmdf f = true ↔ FieldMissing s f := by
  simp [missingField, FieldMissing, and_assoc]

theorem outOfRange_iff {s : State} {f : FieldIx} (h : s.d.f[f].en = true → s.d.f[f].start.toNat ≤ s.d.f[f].stop.toNat) :
    outOfRange s.d s.cmdf s.fval f = true ↔ ValueRejected s f := by
  simp only [outOfRange, Bool.and_eq_true, supplied_iff, beq_iff_eq, Bool.or_eq_true, decide_eq_true_eq, lt_bitlen_iff,
    ValueRejected, and_assoc, or_assoc]
  refine and_congr_right fun hs => ?_
  rw [fieldWidth_eq_bits (h hs)]

theorem unmatchedEnum_iff (s : State) (f : FieldIx) :
    unmatchedEnum s.d s.cmdf s.fval f = true ↔ EnumUnmatched s f := by
  simp only [unmatchedEnum, Bool.and_eq_true, supplied_iff, beq_iff_eq, entryByValue_isNone, EnumUnmatched, and_assoc]

end Sys2Proof.Machine
end

