-- ==== Sys2Proof/Laws/Builder.lean ====
section
/-!
SUPPORT. The builder, slot by slot: what each write and each of the five steps leaves in slot `j`.
-/

namespace Sys2Proof.Machine

theorem getElem_setSlot (r : RawBuf) (i : Nat) (c : Code) {j : Nat} (hj : j < 64) :
    (setSlot r i c)[j] = if i = j then c else r[j] := by
  rw [setSlot, Vector.getElem_setIfInBounds hj]

/-- A pair write changes the two slots of its pair and no other. -/
theorem getElem_setPair (r : RawBuf) (b : Nat) (p : Pair) {j : Nat} (hj : j < 64) :
    (setPair r b p)[j] = if j / 2 = b then p.half j else r[j] := by
  rw [setPair, getElem_setSlot _ _ _ hj, getElem_setSlot _ _ _ hj]
  by_cases h1 : 2 * b + 1 = j
  · have : j / 2 = b ∧ ¬ j % 2 = 0 := by omega
    simp [h1, this, Pair.half]
  · by_cases h0 : 2 * b = j
    · have : j / 2 = b ∧ j % 2 = 0 := by omega
      simp [h0, this, Pair.half]
    · have : ¬ j / 2 = b := by omega
      simp [h0, h1, this]

theorem getElem_foldl_setPair (l : List Nat) (p : Pair) (r : RawBuf) {j : Nat} (hj : j < 64) :
    (l.foldl (fun r b => setPair r b p) r)[j] = if j / 2 ∈ l then p.half j else r[j] := by
  induction l generalizing r with
  | nil => simp
  | cons b l ih =>
    rw [List.foldl_cons, ih, getElem_setPair _ _ _ hj]
    by_cases h1 : j / 2 ∈ l
    · simp [h1]
    · by_cases h2 : j / 2 = b <;> simp [h1, h2]

theorem getElem_buildBaseline (d : Descriptor) (r : RawBuf) {j : Nat} (hj : j < 64) :
    (buildBaseline d r)[j] = if j / 2 < d.rawlen.toNat / 2 then d.low.half j else r[j] := by
  rw [buildBaseline, getElem_foldl_setPair _ _ _ hj]
  simp

theorem getElem_buildHeader (d : Descriptor) (r : RawBuf) {j : Nat} (hj : j < 64) :
    (buildHeader d r)[j] = if j / 2 = 0 then d.hdr.half j else r[j] := by
  rw [buildHeader, getElem_setPair _ _ _ hj]

/-- The fields of a frame: slot `j` is high when some visited field renders its pair, else as before. -/
theorem getElem_buildFields (d : Descriptor) (c : CmdFlags) (fval : Vector Val 4) (m : Matches) (r : RawBuf) {j : Nat}
    (hj : j < 64) :
    ((∃ f, supplied d c f = true ∧ m.unmatched[f] = false ∧ j / 2 ∈ render d fval f m.entry[f]) →
      (buildFields d c fval m r)[j] = d.high.half j) ∧
    ((¬ ∃ f, supplied d c f = true ∧ m.unmatched[f] = false ∧ j / 2 ∈ render d fval f m.entry[f]) →
      (buildFields d c fval m r)[j] = r[j]) := by
  have step : ∀ (f : FieldIx) (r : RawBuf), (buildField d c fval m r f)[j] =
      if supplied d c f = true ∧ m.unmatched[f] = false ∧ j / 2 ∈ render d fval f m.entry[f] then d.high.half j
      else r[j] := by
    intro f r
    rw [buildField]
    by_cases hv : (supplied d c f && !m.unmatched[f]) = true
    · rw [if_pos hv, getElem_foldl_setPair _ _ _ hj]
      rw [Bool.and_eq_true, Bool.not_eq_true'] at hv
      simp only [hv.1, hv.2, true_and]
    · rw [if_neg hv]
      rw [Bool.and_eq_true, Bool.not_eq_true'] at hv
      rw [if_neg (fun h => hv ⟨h.1, h.2.1⟩)]
  have all : ∀ (l : List FieldIx) (r : RawBuf),
      ((∃ f ∈ l, supplied d c f = true ∧ m.unmatched[f] = false ∧ j / 2 ∈ render d fval f m.entry[f]) →
        (l.foldl (buildField d c fval m) r)[j] = d.high.half j) ∧
      ((¬ ∃ f ∈ l, supplied d c f = true ∧ m.unmatched[f] = false ∧ j / 2 ∈ render d fval f m.entry[f]) →
        (l.foldl (buildField d c fval m) r)[j] = r[j]) := by
    intro l
    induction l with
    | nil => intro r; simp
    | cons f l ih =>
      intro r
      rw [List.foldl_cons]
      by_cases hl : ∃ g ∈ l, supplied d c g = true ∧ m.unmatched[g] = false ∧ j / 2 ∈ render d fval g m.entry[g]
      · refine ⟨fun _ => (ih _).1 hl, fun h => absurd ?_ h⟩
        obtain ⟨g, hg, hx⟩ := hl
        exact ⟨g, List.mem_cons_of_mem _ hg, hx⟩
      · rw [(ih _).2 hl, step]
        constructor
        · rintro ⟨g, hg, hx⟩
          rcases List.mem_cons.1 hg with rfl | hg
          · rw [if_pos hx]
          · exact absurd ⟨g, hg, hx⟩ hl
        · intro h
          rw [if_neg (fun hx => h ⟨f, List.mem_cons_self, hx⟩)]
  have := all allFields r
  simp only [mem_allFields, true_and] at this
  exact this

/-- The state override: slot `j` of pair `POS + k` takes the selected pattern's pair `k`, every other slot is as
before. -/
theorem getElem_buildState (d : Descriptor) (c : CmdFlags) (r : RawBuf) {j : Nat} (hj : j < 64) :
    (d.stateSeg.en = true → ∀ k : Fin 2, k.val < d.stateSeg.pairs → j / 2 = d.stateSeg.pos.toNat + k.val →
      (buildState d c r)[j] = (selectedState d c)[k].half j) ∧
    (¬ StatePair d (j / 2) → (buildState d c r)[j] = r[j]) := by
  rw [buildState]
  cases he : d.stateSeg.en
  · simp
  · simp only [if_true, forall_const]
    cases hw : d.stateSeg.w2
    · simp only [Bool.false_eq_true, if_false, getElem_setPair _ _ _ hj, StatePair, he, true_and, StateSeg.Covers,
        StateSeg.pairs, hw, Bool.toNat_false, Nat.add_zero]
      constructor
      · intro k hk hp
        have hk : k = 0 := by omega
        subst hk
        rw [if_pos (by simpa using hp)]
        rfl
      · intro h; rw [if_neg (by omega)]
    · simp only [if_true, getElem_setPair _ _ _ hj, StatePair, he, true_and, StateSeg.Covers, StateSeg.pairs, hw,
        Bool.toNat_true]
      constructor
      · intro k _ hp
        match k with
        | 0 =>
          rw [if_neg (by simp at hp; omega), if_pos (by simpa using hp)]
          rfl
        | 1 =>
          rw [if_pos (by simpa using hp)]
          rfl
      · intro h; rw [if_neg (by omega), if_neg (by omega)]

/-- The footer: the last two slots of the frame, no other. -/
theorem getElem_buildFooter {d : Descriptor} (r : RawBuf) {j : Nat} (hj : j < 64) (h2 : 2 ∣ d.rawlen.toNat)
    (h4 : 4 ≤ d.rawlen.toNat) :
    (buildFooter d r)[j] =
      if j < d.rawlen.toNat ∧ d.rawlen.toNat ≤ j + 2 then d.ftr.half j else r[j] := by
  rw [buildFooter, if_pos (by omega), getElem_setSlot _ _ _ hj, getElem_setSlot _ _ _ hj]
  by_cases h1 : d.rawlen.toNat - 1 = j
  · have : ¬ j % 2 = 0 := by omega
    rw [if_pos h1, if_pos (by omega), Pair.half, if_neg this]
  · by_cases h0 : d.rawlen.toNat - 2 = j
    · have : j % 2 = 0 := by omega
      rw [if_neg h1, if_pos h0, if_pos (by omega), Pair.half, if_pos this]
    · rw [if_neg h1, if_neg h0, if_neg (by omega)]

theorem suppressed_iff (d : Descriptor) (m : Matches) : suppressed d m = true ↔ FrameSuppressed d m := by
  simp only [suppressed, Bool.and_eq_true, beq_iff_eq, allFields_any, FrameSuppressed]

/-- The scaled view is exact: the product of 8 and 16 bits fits 24 (spec/42_frame_builder.md R190). -/
theorem scale_toNat (s : State) (i : SlotIx) : (scale s i).toNat = s.raw[i].toNat * s.d.tu.toNat := by
  have h1 := s.raw[i].isLt
  have h2 := s.d.tu.isLt
  have h3 : s.raw[i].toNat * s.d.tu.toNat ≤ 255 * 65535 := Nat.mul_le_mul (by omega) (by omega)
  rw [scale, BitVec.toNat_mul, BitVec.toNat_setWidth, BitVec.toNat_setWidth,
    Nat.mod_eq_of_lt (by omega : s.raw[i].toNat < 2 ^ 24), Nat.mod_eq_of_lt (by omega : s.d.tu.toNat < 2 ^ 24),
    Nat.mod_eq_of_lt (by omega)]

end Sys2Proof.Machine
end

