-- ==== Sys2Proof/Laws/Commands.lean ====
section
/-!
SUPPORT. The commands and the step: what each can answer, said once.
-/

namespace Sys2Proof.Machine

/-! ### precheck and VALIDATE -/

theorem precheck_ok {s : State} (h : Ready s) : precheck s = .ok () := by
  rw [precheck, h.1, (cfgOk_iff s.d).2 h.2]; rfl

theorem precheck_error {s : State} (h : ¬ Ready s) :
    precheck s = .error { code := .badDescriptor, field := .noField } := by
  rw [precheck, if_neg]
  rw [Bool.and_eq_true, cfgOk_iff]; exact h

/-- Every enabled range is the right way round, as `CFG_OK` demands. -/
abbrev RangesOrdered (d : Descriptor) : Prop :=
  ∀ f : FieldIx, d.f[f].en = true → d.f[f].start.toNat ≤ d.f[f].stop.toNat

theorem DescriptorValid.rangesOrdered {d : Descriptor} (h : DescriptorValid d) : RangesOrdered d :=
  fun _ hf => (h.field hf).1

theorem find_missing_eq_none (s : State) :
    allFields.find? (missingField s.d s.cmdf) = none ↔ ∀ f, ¬ FieldMissing s f := by
  rw [allFields_find?_eq_none]
  exact forall_congr' fun f => by rw [← missingField_iff, Bool.not_eq_true]

theorem find_missing_eq_some (s : State) (f : FieldIx) :
    allFields.find? (missingField s.d s.cmdf) = some f ↔ FirstField (FieldMissing s) f := by
  rw [allFields_find?_eq_some, missingField_iff, FirstField]
  exact and_congr_right fun _ => forall₂_congr fun g _ => by rw [← missingField_iff, Bool.not_eq_true]

theorem find_outOfRange_eq_none {s : State} (h : RangesOrdered s.d) :
    allFields.find? (outOfRange s.d s.cmdf s.fval) = none ↔ ∀ f, ¬ ValueRejected s f := by
  rw [allFields_find?_eq_none]
  exact forall_congr' fun f => by rw [← outOfRange_iff (h f), Bool.not_eq_true]

theorem find_outOfRange_eq_some {s : State} (h : RangesOrdered s.d) (f : FieldIx) :
    allFields.find? (outOfRange s.d s.cmdf s.fval) = some f ↔ FirstField (ValueRejected s) f := by
  rw [allFields_find?_eq_some, outOfRange_iff (h f), FirstField]
  exact and_congr_right fun _ => forall₂_congr fun g _ => by rw [← outOfRange_iff (h g), Bool.not_eq_true]

theorem find_unmatched_eq_none (s : State) :
    allFields.find? (unmatchedEnum s.d s.cmdf s.fval) = none ↔ ∀ f, ¬ EnumUnmatched s f := by
  rw [allFields_find?_eq_none]
  exact forall_congr' fun f => by rw [← unmatchedEnum_iff, Bool.not_eq_true]

theorem find_unmatched_eq_some (s : State) (f : FieldIx) :
    allFields.find? (unmatchedEnum s.d s.cmdf s.fval) = some f ↔ FirstField (EnumUnmatched s) f := by
  rw [allFields_find?_eq_some, unmatchedEnum_iff, FirstField]
  exact and_congr_right fun _ => forall₂_congr fun g _ => by rw [← unmatchedEnum_iff, Bool.not_eq_true]

theorem stateMissing_iff (s : State) :
    (s.d.stateSeg.en && !s.cmdf.sa && !s.cmdf.sb) = true ↔ StateMissing s := by
  simp [StateMissing, and_assoc]

theorem stateAmbiguous_iff (s : State) :
    (s.d.stateSeg.en && s.cmdf.sa && s.cmdf.sb) = true ↔ StateAmbiguous s := by
  simp [StateAmbiguous, and_assoc]

/-- The validator's outcomes, all of them: it raises what `CommandRejected` says, or accepts with the table look-ups and
the warning that some supplied ENUM value is unmatched. -/
theorem validate_cases {s : State} (h : RangesOrdered s.d) :
    (∃ r, CommandRejected s r ∧ validate s.d s.cmdf s.fval = .error r) ∨
    (CommandAccepted s ∧ ∃ w : Bool, (w = true ↔ ∃ f, EnumUnmatched s f) ∧
      validate s.d s.cmdf s.fval = .ok { found := enumMatches s.d s.cmdf s.fval, wEnum := w }) := by
  cases h1 : allFields.find? (missingField s.d s.cmdf) with
  | some f =>
    refine .inl ⟨_, .fieldMissing f ((find_missing_eq_some s f).1 h1), ?_⟩
    simp only [validate, h1]
  | none =>
    have n1 := (find_missing_eq_none s).1 h1
    by_cases h2 : StateMissing s
    · refine .inl ⟨_, .stateMissing n1 h2, ?_⟩
      simp only [validate, h1, (stateMissing_iff s).2 h2, if_true]
    have c2 : ¬ (s.d.stateSeg.en && !s.cmdf.sa && !s.cmdf.sb) = true := by rwa [stateMissing_iff]
    cases h3 : allFields.find? (outOfRange s.d s.cmdf s.fval) with
    | some f =>
      refine .inl ⟨_, .valueRejected f n1 h2 ((find_outOfRange_eq_some h f).1 h3), ?_⟩
      simp only [validate, h1, if_neg c2, h3]
    | none =>
      have n3 := (find_outOfRange_eq_none h).1 h3
      by_cases h4 : StateAmbiguous s
      · refine .inl ⟨_, .stateAmbiguous n1 n3 h4, ?_⟩
        simp only [validate, h1, if_neg c2, h3, (stateAmbiguous_iff s).2 h4, if_true]
      have c4 : ¬ (s.d.stateSeg.en && s.cmdf.sa && s.cmdf.sb) = true := by rwa [stateAmbiguous_iff]
      cases h5 : allFields.find? (unmatchedEnum s.d s.cmdf s.fval) with
      | some f =>
        have f5 := (find_unmatched_eq_some s f).1 h5
        cases h6 : s.d.mode.strictEnum
        · refine .inr ⟨⟨n1, h2, n3, h4, fun hs => absurd hs (by simp [h6])⟩, true, ⟨fun _ => ⟨f, f5.1⟩, fun _ => rfl⟩, ?_⟩
          simp only [validate, h1, if_neg c2, h3, if_neg c4, validateEnums, h5, h6, Bool.false_eq_true, if_false]
        · refine .inl ⟨_, .enumUnmatched f n1 h2 n3 h4 h6 f5, ?_⟩
          simp only [validate, h1, if_neg c2, h3, if_neg c4, validateEnums, h5, h6, if_true]
      | none =>
        have n5 := (find_unmatched_eq_none s).1 h5
        refine .inr ⟨⟨n1, h2, n3, h4, fun _ => n5⟩, false, ?_, ?_⟩
        · simpa only [Bool.false_eq_true, false_iff, not_exists] using n5
        · simp only [validate, h1, if_neg c2, h3, if_neg c4, validateEnums, h5]

@[simp] theorem enumMatches_unmatched (d : Descriptor) (c : CmdFlags) (fval : Vector Val 4) (f : FieldIx) :
    (enumMatches d c fval).unmatched[f] = unmatchedEnum d c fval f := by
  simp [enumMatches]

@[simp] theorem enumMatches_entry (d : Descriptor) (c : CmdFlags) (fval : Vector Val 4) (f : FieldIx) :
    (enumMatches d c fval).entry[f] = keptEntry d c fval f := by
  simp [enumMatches]

theorem keptEntry_eq {s : State} {f : FieldIx} (h : Supplied s f) (hk : s.d.f[f].kind = .enum) :
    keptEntry s.d s.cmdf s.fval f = entryByValue s.d f s.fval[f] := by
  rw [keptEntry, if_pos]
  rw [Bool.and_eq_true, supplied_iff, beq_iff_eq]; exact ⟨h, hk⟩

/-! ### DECODE and ENCODE -/

/-- The outcomes of DECODE, all of them (spec/44_commands.md R221, R223, R228). -/
theorem execDecode_cases (s : State) :
    (¬ Ready s ∧ execDecode s =
      .next (raise { code := .badDescriptor, field := .noField } (unspecifyCommand s))) ∨
    (Ready s ∧ s.rxlen ≠ s.d.rawlen ∧ execDecode s =
      .next (raise { code := .invalidFrameLength, field := .noField } (unspecifyCommand s))) ∨
    (Ready s ∧ s.rxlen = s.d.rawlen ∧ execDecode s =
      .next (commitDecode (sampleBits s.d s.raw) (interpret s.d (sampleBits s.d s.raw)) s)) := by
  by_cases h : Ready s
  · by_cases hl : s.rxlen = s.d.rawlen
    · refine .inr (.inr ⟨h, hl, ?_⟩)
      simp only [execDecode, decodeResult, precheck_ok h, extract_ok hl]; rfl
    · refine .inr (.inl ⟨h, hl, ?_⟩)
      simp only [execDecode, decodeResult, precheck_ok h, extract_error hl]; rfl
  · refine .inl ⟨h, ?_⟩
    simp only [execDecode, decodeResult, precheck_error h]; rfl

/-- The outcomes of ENCODE, all of them (R222, R223, R228). -/
theorem execEncode_cases (s : State) :
    (¬ Ready s ∧ execEncode s = .next (raise { code := .badDescriptor, field := .noField } (unspecifyBits s))) ∨
    (∃ r, Ready s ∧ CommandRejected s r ∧ execEncode s = .next (raise r (unspecifyBits s))) ∨
    (∃ w : Bool, Ready s ∧ CommandAccepted s ∧ (w = true ↔ ∃ f, EnumUnmatched s f) ∧
      validate s.d s.cmdf s.fval = .ok { found := enumMatches s.d s.cmdf s.fval, wEnum := w } ∧
      execEncode s = .next (commitEncode { found := enumMatches s.d s.cmdf s.fval, wEnum := w } s)) := by
  by_cases h : Ready s
  · rcases validate_cases h.2.rangesOrdered with ⟨r, hr, hv⟩ | ⟨ha, w, hw, hv⟩
    · refine .inr (.inl ⟨r, h, hr, ?_⟩)
      simp only [execEncode, encodeResult, precheck_ok h, hv]; rfl
    · refine .inr (.inr ⟨w, h, ha, hw, hv, ?_⟩)
      simp only [execEncode, encodeResult, precheck_ok h, hv]; rfl
  · refine .inl ⟨h, ?_⟩
    simp only [execEncode, encodeResult, precheck_error h]; rfl

/-! ### The step -/

theorem accessRefusal_eq_none (w : AccessWidth) (a : Nat) : accessRefusal w a = none ↔ WholeWord w a := by
  rw [accessRefusal, WholeWord, Nat.dvd_iff_mod_eq_zero]
  split
  · simp_all
  · split
    · simp_all
    · split
      · simp_all
      · simp_all

theorem hostRead_eq {a : Nat} (h : WholeWord .word a) (s : State) :
    hostRead .word a s = .next { s with reads := s.reads ++ [regRead s a] } := by
  rw [hostRead, (accessRefusal_eq_none _ _).2 h]

theorem hostWrite_eq {a : Nat} (h : WholeWord .word a) (v : Word) (s : State) :
    hostWrite .word a v s = writeOffset a v s := by
  rw [hostWrite, (accessRefusal_eq_none _ _).2 h]

/-- A write to a register that is not `CMD`. -/
theorem writeOffset_reg {a : Nat} {r : Reg} (h : regOfOffset a = some r) (hr : r ≠ .cmd) (v : Word) (s : State) :
    writeOffset a v s = .next (writeReg r v s) := by
  rw [writeOffset, h]
  cases r <;> first | rfl | exact absurd rfl hr

/-- What a step can do when it answers a next state: nothing (idle), a read, an ignored write, a register write, a
command, or the reset input. -/
theorem step_cases {s t : State} (h : step s = .next t) :
    (s.host = [] ∧ t = s) ∨
    (∃ a v, t = { dropEvent s with reads := s.reads ++ [v] } ∧ v = regRead (dropEvent s) a) ∨
    t = dropEvent s ∨
    (∃ r v, r ≠ Reg.cmd ∧ t = writeReg r v (dropEvent s)) ∨
    (∃ w rest, s.host = .regWrite .word 0x000 w :: rest ∧ exec (decodeWord w) (dropEvent s) = .next t) ∨
    (∃ rest, s.host = .assertReset :: rest ∧ t = resetInput (dropEvent s)) := by
  rw [step, hostStep] at h
  cases hh : s.host with
  | nil =>
    rw [hh] at h
    exact .inl ⟨rfl, by exact (Host.Outcome.next.inj h).symm⟩
  | cons e rest =>
    rw [hh] at h
    cases e with
    | assertReset =>
      refine .inr (.inr (.inr (.inr (.inr ⟨rest, rfl, ?_⟩))))
      exact (Host.Outcome.next.inj h).symm
    | regRead w a =>
      simp only [hostEvent, hostRead] at h
      split at h
      · cases h
      · refine .inr (.inl ⟨a, _, ?_, rfl⟩)
        exact (Host.Outcome.next.inj h).symm
    | regWrite w a v =>
      simp only [hostEvent, hostWrite] at h
      split at h
      · cases h
      · rename_i hacc
        obtain ⟨rfl, h4, -⟩ := (accessRefusal_eq_none w a).1 hacc
        cases hr : regOfOffset a with
        | none =>
          rw [writeOffset, hr] at h
          refine .inr (.inr (.inl ?_))
          exact (Host.Outcome.next.inj h).symm
        | some r =>
          by_cases hc : r = .cmd
          · subst hc
            have ha : a = 0 := by
              have hw : regOfWordIndex (a / 4) = some .cmd := by
                rw [regOfOffset] at hr; split at hr
                · exact hr
                · cases hr
              have : a / 4 = 0 := by
                by_contra h0
                rw [regOfWordIndex] at hw
                split at hw
                · rename_i hlt
                  have hm : a / 4 ∈ List.range' 1 31 := by rw [List.mem_range'_1]; omega
                  revert hw hm
                  generalize a / 4 = n
                  intro hw hm
                  have : ∀ n ∈ List.range' 1 31, regOfFixed n ≠ some .cmd := by decide
                  exact this n hm hw
                · repeat' split at hw
                  all_goals cases hw
              omega
            subst ha
            refine .inr (.inr (.inr (.inr (.inl ⟨v, rest, rfl, ?_⟩))))
            rw [writeOffset, hr] at h; exact h
          · rw [writeOffset_reg hr hc] at h
            refine .inr (.inr (.inr (.inl ⟨r, v, hc, ?_⟩)))
            exact (Host.Outcome.next.inj h).symm

/-! ### Register writes -/

/-- What a register write can do: nothing, set the lock, change one data register, or, unlocked, the descriptor. -/
theorem writeReg_cases (r : Reg) (v : Word) (s : State) :
    writeReg r v s = s ∨ writeReg r v s = { s with lock := s.lock || v.getLsbD 0 } ∨
    (∃ x, writeReg r v s = { s with rxlen := x }) ∨ (∃ x, writeReg r v s = { s with cmdf := x }) ∨
    (∃ x, writeReg r v s = { s with fval := x }) ∨ (∃ x, writeReg r v s = { s with raw := x }) ∨
    (s.lock = false ∧ ∃ x, writeReg r v s = { s with d := x }) := by
  cases r
  case cmd | status | bits | txdur => exact .inl rfl
  case ctrl => exact .inr (.inl rfl)
  case rxlen => exact .inr (.inr (.inl ⟨_, rfl⟩))
  case cmdf => exact .inr (.inr (.inr (.inl ⟨_, rfl⟩)))
  case fval => exact .inr (.inr (.inr (.inr (.inl ⟨_, rfl⟩))))
  case raw => exact .inr (.inr (.inr (.inr (.inr (.inl ⟨_, rfl⟩)))))
  all_goals
    simp only [writeReg]
    split
    · exact .inl rfl
    · rename_i hl
      exact .inr (.inr (.inr (.inr (.inr (.inr ⟨by simpa using hl, _, rfl⟩)))))

end Sys2Proof.Machine
end

