-- ==== Sys2Proof/Laws/PerInstr.lean ====
section
/-!
SUPPORT. Statements about every instruction as syntax, one lemma for each constructor of `Instr`.
-/

namespace Sys2Proof.Laws.EncodeLength

/-- A row of format CW has one command word (spec/30_encoding.md R91), a stage has none (R94). -/
def Statement (i : Instr) : Prop := (encode i).length = i.wordCount

theorem nop : Statement .nop := rfl

theorem decode : Statement .decode := rfl

theorem encode : Statement .encode := rfl

theorem reserved (w : Word) : Statement (.reserved w) := rfl

theorem extract : Statement .extract := rfl

theorem sample (m sp : Code) : Statement (.sample m sp) := rfl

theorem interpret (b : BitsVec) : Statement (.interpret b) := rfl

theorem interpretNumNatural (b : BitsVec) (f : FieldIx) : Statement (.interpretNumNatural b f) := rfl

theorem interpretNumReversed (b : BitsVec) (f : FieldIx) : Statement (.interpretNumReversed b f) := rfl

theorem interpretEnum (b : BitsVec) (f : FieldIx) : Statement (.interpretEnum b f) := rfl

theorem interpretState (b : BitsVec) : Statement (.interpretState b) := rfl

theorem render (f : FieldIx) (e : Option EntryIx) : Statement (.render f e) := rfl

theorem renderNum (f : FieldIx) (v : Val) : Statement (.renderNum f v) := rfl

theorem renderEnum (f : FieldIx) (e : EntryIx) : Statement (.renderEnum f e) := rfl

theorem validate : Statement .validate := rfl

theorem build (m : Matches) : Statement (.build m) := rfl

theorem scale (i : SlotIx) : Statement (.scale i) := rfl

end Sys2Proof.Laws.EncodeLength
end

