-- ==== Sys2Proof/Laws/Registers.lean ====
section
/-!
SUPPORT. The register words, bit by bit: what a written word leaves in a register of several fields when it is read
back, and the fields of `STATUS`.
-/

namespace Sys2Proof.Machine

/-- The bits of a read of `STATUS` (spec/10_state.md R27). -/
theorem statusWord_getLsbD (s : State) (i : Nat) : (statusWord s).getLsbD i =
    if i < 4 then s.status.result.code.getLsbD i
    else if i < 8 then s.status.errField.code.getLsbD (i - 4)
    else if i = 8 then s.status.wEnum
    else if i = 9 then s.status.outValid
    else if i = 10 then cfgOk s.d
    else if i = 11 then s.lock
    else false := by
  rw [statusWord]
  change BitVec.getLsbD (w := 20 + 1 + 1 + 1 + 1 + 4 + 4) _ i = _
  simp only [BitVec.getLsbD_append, BitVec.getLsbD_ofBool, BitVec.getLsbD_zero]
  repeat' split
  all_goals first | rfl | omega | (simp; done) | (simp; intros; omega)

theorem pairWord_getLsbD (p : Pair) (i : Nat) :
    (pairWord p).getLsbD i = if i < 8 then p.m.getLsbD i else p.s.getLsbD (i - 8) := by
  rw [pairWord]
  change BitVec.getLsbD (w := 16 + 8 + 8) _ i = _
  simp only [BitVec.getLsbD_append, BitVec.getLsbD_zero]
  repeat' split
  all_goals first | rfl | omega | (rw [BitVec.getLsbD_of_ge]; omega)

theorem pairWord_pairOfWord (v : Word) : pairWord (pairOfWord v) = v &&& 0xFFFF := by
  ext i hi
  rw [← BitVec.getLsbD_eq_getElem, pairWord_getLsbD]
  interval_cases i <;> simp [pairOfWord]

theorem modeWord_modeOfWord (v : Word) : modeWord (modeOfWord v) = v &&& 0xF := by
  have h0 : ((modeOfWord v).order == .reversed) = v.getLsbD 0 := by rw [modeOfWord]; cases v.getLsbD 0 <;> rfl
  have h1 : ((modeOfWord v).half == .second) = v.getLsbD 1 := by rw [modeOfWord]; cases v.getLsbD 1 <;> rfl
  have h2 : (modeOfWord v).strictEnum = v.getLsbD 2 := rfl
  have h3 : ((modeOfWord v).nomatchScope == .frame) = v.getLsbD 3 := by rw [modeOfWord]; cases v.getLsbD 3 <;> rfl
  rw [modeWord, h0, h1, h2, h3]
  ext i hi
  rw [← BitVec.getLsbD_eq_getElem]
  simp only [BitVec.getLsbD_append, BitVec.getLsbD_zero, BitVec.getLsbD_ofBool]
  interval_cases i <;> simp

theorem stateSegWord_stateSegOfWord (v : Word) : stateSegWord (stateSegOfWord v) = v &&& 0x3F03 := by
  rw [stateSegWord]
  ext i hi
  rw [← BitVec.getLsbD_eq_getElem]
  simp only [BitVec.getLsbD_append, BitVec.getLsbD_zero, BitVec.getLsbD_ofBool, stateSegOfWord]
  interval_cases i <;> simp

theorem fieldCtlWord_fieldWithCtl (v : Word) (x : FieldEntry) : fieldCtlWord (fieldWithCtl v x) = v &&& 0xFF3F3F07 := by
  have hk : ((fieldWithCtl v x).kind == .enum) = v.getLsbD 1 := by rw [fieldWithCtl]; cases v.getLsbD 1 <;> rfl
  rw [fieldCtlWord, hk]
  ext i hi
  rw [← BitVec.getLsbD_eq_getElem]
  simp only [BitVec.getLsbD_append, BitVec.getLsbD_zero, BitVec.getLsbD_ofBool, fieldWithCtl]
  interval_cases i <;> simp

theorem entryCtlWord_entryWithCtl (v : Word) (x : EnumEntry) : entryCtlWord (entryWithCtl v x) = v &&& 0xD := by
  have hk : BitVec.ofNat 2 (entryWithCtl v x).field.val = v.extractLsb' 2 2 := by
    rw [entryWithCtl]
    simp only [Fin.ofNat]
    rw [Nat.mod_eq_of_lt (v.extractLsb' 2 2).isLt, BitVec.ofNat_toNat, BitVec.setWidth_eq]
  rw [entryCtlWord, hk]
  ext i hi
  rw [← BitVec.getLsbD_eq_getElem]
  simp only [BitVec.getLsbD_append, BitVec.getLsbD_zero, BitVec.getLsbD_ofBool, entryWithCtl]
  interval_cases i <;> simp

theorem cmdfWord_cmdfOfWord (v : Word) : cmdfWord (cmdfOfWord v) = v &&& 0x30F := by
  rw [cmdfWord]
  ext i hi
  rw [← BitVec.getLsbD_eq_getElem]
  simp only [BitVec.getLsbD_append, BitVec.getLsbD_zero, BitVec.getLsbD_ofBool, cmdfOfWord]
  interval_cases i <;> simp

/-! ### Offsets and steps -/

/-- An offset that holds a register lies in the space (spec/20_memory.md R61, R63). -/
theorem regOfOffset_lt {a : Nat} {r : Reg} (h : regOfOffset a = some r) : a < 0x400 := by
  by_contra hc
  rw [regOfOffset] at h
  split at h
  · rw [regOfWordIndex, if_neg (by omega), if_neg (by omega), if_neg (by omega), if_neg (by omega), if_neg (by omega),
      if_neg (by omega)] at h
    cases h
  · cases h

/-- A step that writes a register other than `CMD`. -/
theorem step_write {s : State} {a : Nat} {v : Word} {rest : List HostEvent} {r : Reg}
    (hh : s.host = .regWrite .word a v :: rest) (h : WholeWord .word a) (hr : regOfOffset a = some r) (hc : r ≠ .cmd) :
    step s = .next (writeReg r v { s with host := rest }) := by
  rw [step, hostStep, hh]
  change hostWrite .word a v (dropEvent s) = _
  rw [hostWrite_eq h, writeOffset_reg hr hc]
  simp [dropEvent, hh]

/-- A step that writes an unmapped offset. -/
theorem step_write_unmapped {s : State} {a : Nat} {v : Word} {rest : List HostEvent}
    (hh : s.host = .regWrite .word a v :: rest) (h : WholeWord .word a) (hr : regOfOffset a = none) :
    step s = .next { s with host := rest } := by
  rw [step, hostStep, hh]
  change hostWrite .word a v (dropEvent s) = _
  rw [hostWrite_eq h, writeOffset, hr]
  simp [dropEvent, hh]

end Sys2Proof.Machine
end

