-- ==== Sys2Proof/Tests/Slice0.lean ====
section
/-!
SUPPORT. The author's tests: well-formedness, decoding of words written out from spec/30_encoding.md, one step or stage
at a time with the values of spec/95_test_vectors.md (the vector is named), and for each statement with hypotheses a
concrete state that meets them.
-/

namespace Sys2Proof.Tests

open Sys2Proof.Machine

-- One theorem after the other: a hundred kernel evaluations waiting at once would need a hundred threads.
set_option Elab.async false

/-! ### Well-formedness -/

theorem test_reserved_of_decode_word_is_ill_formed : (Instr.reserved 0x00000001#32).wellFormed = false := by decide

theorem test_reserved_of_three_is_well_formed : (Instr.reserved 0x00000003#32).wellFormed = true := by decide

theorem test_build_with_contradictory_matches_is_ill_formed :
    (Instr.build { unmatched := #v[true, false, false, false], entry := #v[some 2, none, none, none] }).wellFormed =
      false := by decide

/-! ### Decoding: R91 (RSV in 31:2, OP in 1:0), R92, R93 -/

theorem test_decode_nop : decodeWord 0b00000000000000000000000000000000#32 = .nop := by decide

theorem test_decode_decode : decodeWord 0b00000000000000000000000000000001#32 = .decode := by decide

theorem test_decode_encode : decodeWord 0b00000000000000000000000000000010#32 = .encode := by decide

theorem test_decode_op_three : decodeWord 0b00000000000000000000000000000011#32 = .reserved 0x00000003#32 := by decide

theorem test_decode_lowest_reserved_bit :
    decodeWord 0b00000000000000000000000000000100#32 = .reserved 0x00000004#32 := by decide

theorem test_decode_highest_reserved_bit :
    decodeWord 0b10000000000000000000000000000001#32 = .reserved 0x80000001#32 := by decide

theorem test_decode_empty : decode [] = .error .noWord := by rfl

theorem test_table_words : [0, 1, 2, 3].map (decodeTableWord 32) =
    [some .nop, some .decode, some .encode, some (.reserved 3)] := by decide

/-- R94: a stage has no word. -/
theorem test_stages_have_no_word : ([.extract, .sample 0 0, .interpret 0, .interpretNumNatural 0 0,
    .interpretNumReversed 0 0, .interpretEnum 0 0, .interpretState 0, .render 0 none, .renderNum 0 0, .renderEnum 0 0,
    .validate, .build { unmatched := #v[false, false, false, false], entry := #v[none, none, none, none] },
    .scale 0] : List Instr).all (fun i => encode i == []) = true := by decide

/-! ### The test descriptors (spec/95_test_vectors.md, section 0) -/

/-- T-MINI: 12 slots, one Reversed field at 1 to 2, a two-pair state at 3. -/
def mini : Descriptor :=
  { zeroDescriptor with
    rawlen := 12, bitlen := 5, tu := 1, pulse := 2
    mode := { order := .reversed, half := .second, strictEnum := false, nomatchScope := .field }
    sentinel := 1, hdr := ⟨9, 1⟩, ftr := ⟨1, 9⟩, low := ⟨1, 2⟩, high := ⟨2, 1⟩
    stateSeg := { en := true, w2 := true, pos := 3 }
    sa := #v[⟨2, 1⟩, ⟨1, 2⟩], sb := #v[⟨1, 2⟩, ⟨2, 1⟩]
    f := #v[{ en := true, kind := .numeric, req := true, start := 1, stop := 2, name := 1, min := 0, max := 3 },
      zeroField, zeroField, zeroField] }

/-- T-CS: 52 slots, one Reversed field at 1 to 23, a one-pair state at 24. -/
def cs : Descriptor :=
  { zeroDescriptor with
    rawlen := 52, bitlen := 25, tu := 100, pulse := 3
    mode := { order := .reversed, half := .second, strictEnum := false, nomatchScope := .field }
    sentinel := 2, hdr := ⟨21, 2⟩, ftr := ⟨2, 34⟩, low := ⟨2, 6⟩, high := ⟨6, 2⟩
    stateSeg := { en := true, w2 := false, pos := 24 }
    sa := #v[⟨6, 2⟩, zeroPair], sb := #v[⟨2, 6⟩, zeroPair]
    f := #v[{ en := true, kind := .numeric, req := true, start := 1, stop := 23, name := 1, min := 0, max := 99999999 },
      zeroField, zeroField, zeroField] }

/-- An entry of the button table of T-SW: field 1. -/
def button (value pattern : BitVec 32) : EnumEntry := { valid := true, field := 1, value := value, pattern := pattern }

/-- T-SW with the given strictness and scope: 56 slots, a Natural field at 1 to 21, an ENUM field at 23 to 25, a
one-pair state at 22. -/
def sw (strict : Bool) (scope : NomatchScope) : Descriptor :=
  { zeroDescriptor with
    rawlen := 56, bitlen := 27, tu := 150, pulse := 2
    mode := { order := .natural, half := .first, strictEnum := strict, nomatchScope := scope }
    sentinel := 2, hdr := ⟨3, 3⟩, ftr := ⟨1, 31⟩, low := ⟨1, 2⟩, high := ⟨2, 1⟩
    stateSeg := { en := true, w2 := false, pos := 22 }
    sa := #v[⟨2, 1⟩, zeroPair], sb := #v[⟨1, 2⟩, zeroPair]
    f := #v[{ en := true, kind := .numeric, req := true, start := 1, stop := 21, name := 2, min := 0, max := 2097151 },
      { en := true, kind := .enum, req := true, start := 23, stop := 25, name := 1, min := 0, max := 0 }, zeroField,
      zeroField]
    e := #v[button 1 1, button 2 2, button 3 4, button 4 3, zeroEntry, zeroEntry, zeroEntry, zeroEntry] }

/-- A locked state under descriptor `d` with the command `FVAL = v0, v1, 0, 0` and flags `c`. -/
def command (d : Descriptor) (v0 v1 : Val) (c : CmdFlags) : State :=
  { State.reset with d := d, lock := true, fval := #v[v0, v1, 0, 0], cmdf := c }

/-- The raw buffer that begins with the given codes. -/
def frame (l : List Code) : RawBuf := Vector.ofFn fun i => l.getD i.val 0

/-- A locked state under `d` that has received the given slots. -/
def received (d : Descriptor) (l : List Code) : State :=
  { State.reset with d := d, lock := true, raw := frame l, rxlen := BitVec.ofNat 7 l.length }

/-- A state with one host write of `w` to `CMD` pending. -/
def withCommand (w : Word) (s : State) : State := { s with host := [.regWrite .word 0x000 w] }

/-- A view of the next state, if there is one. -/
def after {α : Type} (o : Host.Outcome State Fault Refusal) (view : State → α) : Option α :=
  match o with
  | .next t => some (view t)
  | .fault _ => none
  | .refused _ => none

/-- The first `n` slots as numbers. -/
def slots (n : Nat) (s : State) : List Nat := (s.raw.toList.take n).map BitVec.toNat

/-- The frame of vector V-E12: T-MINI, value 2, state A. -/
def miniFrame : List Code := [9, 1, 1, 2, 2, 1, 2, 1, 1, 2, 1, 9]

/-- The state of vector V-D12: the frame of V-E12 received under T-MINI. -/
def miniReceived : State := received mini miniFrame

/-- The state before vector V-E12. -/
def miniCommand : State := command mini 2 0 { present := 1, sa := true, sb := false }

/-- T-SW with unit code 7, which has no table entry (vectors V-V13, V-E10, V-E11). -/
def unmatchedCommand (strict : Bool) (scope : NomatchScope) : State :=
  command (sw strict scope) 5 7 { present := 3, sa := true, sb := false }

/-- No field unmatched, no entry found. -/
def noMatches : Matches := { unmatched := Vector.replicate 4 false, entry := Vector.replicate 4 none }

/-- Field 1 unmatched. -/
def fieldOneUnmatched : Matches := { noMatches with unmatched := #v[false, true, false, false] }

/-! ### The commands, one step each -/

/-- V-D12. -/
theorem test_step_decode : after (step (withCommand 1 miniReceived)) (fun t =>
    (regRead t 0x014, regRead t 0x020, regRead t 0x010, regRead t 0x004)) =
      some (0x0D#32, 2#32, 0x101#32, 0xEF1#32) := by decide +kernel

/-- V-D21 (T-CS, length 50). -/
theorem test_step_decode_wrong_length : after (step (withCommand 1 { received cs [] with rxlen := 50 }))
    (fun t => regRead t 0x004) = some 0xCF2#32 := by decide +kernel

/-- V-E12. -/
theorem test_step_encode : after (step (withCommand 2 miniCommand)) (fun t =>
    (slots 12 t, regRead t 0x00C, regRead t 0x004)) =
      some ([9, 1, 1, 2, 2, 1, 2, 1, 1, 2, 1, 9], 12#32, 0xEF1#32) := by decide +kernel

/-- V-V3 (T-CS, both state flags). -/
theorem test_step_encode_ambiguous : after (step (withCommand 2
    (command cs 12 0 { present := 1, sa := true, sb := true }))) (fun t => regRead t 0x004) = some 0xCE5#32 := by
  decide +kernel

/-- R220: `STATUS` stays as the last command set it. -/
theorem test_step_nop : after (step (withCommand 0 { miniReceived with status :=
    { result := .invalidFrameLength, errField := .noField, wEnum := false, outValid := false } }))
      (fun t => regRead t 0x004) = some 0xCF2#32 := by decide +kernel

/-- R224, R93: `BadCommand` (code 8, no field), descriptor not tested. -/
theorem test_step_reserved : after (step (withCommand 0x00010001#32 State.reset)) (fun t => regRead t 0x004) =
    some 0xF8#32 := by decide +kernel

/-! ### The stages -/

/-- V-X1. -/
theorem test_extract : after (exec .extract miniReceived) (·.stageOut) = some (.bits 0x0D#32) := by decide +kernel

/-- V-X6: an odd, wrong length. -/
theorem test_extract_wrong_length : after (exec .extract { received cs [] with rxlen := 51 }) (·.stageOut) =
    some (.raised { code := .invalidFrameLength, field := .noField }) := by decide +kernel

/-- V-S2: the sentinel in the slot that is not sampled does not count. -/
theorem test_sample_second : after (exec (.sample 2 6) (received cs [])) (·.stageOut) = some (.bit false) := by
  decide +kernel

/-- V-S7. -/
theorem test_sample_first : after (exec (.sample 2 2) (received (sw false .field) [])) (·.stageOut) =
    some (.bit true) := by decide +kernel

/-- V-D14: the state of the frame is neither A nor B. -/
theorem test_interpret : after (exec (.interpret 0x05#32) miniReceived) (·.stageOut) =
    some (.command { val := #v[2, 0, 0, 0], present := 1, sa := false, sb := false, wEnum := false }) := by
  decide +kernel

/-- V-D5: an ENUM field without a hit is absent, with the warning. -/
theorem test_interpret_without_hit : after (exec (.interpret 0x00680000#32) (received (sw false .field) []))
    (·.stageOut) =
    some (.command { val := #v[5, 0, 0, 0], present := 1, sa := true, sb := false, wEnum := true }) := by
  decide +kernel

/-- V-I3: indices 19 and 21 of a Natural field at 1 to 21. -/
theorem test_interpretNumNatural : after (exec (.interpretNumNatural 0x00280000#32 0) (received (sw false .field) []))
    (·.stageOut) = some (.value 5) := by decide +kernel

/-- V-I4: the same bits in the other order. -/
theorem test_interpretNumReversed : after (exec (.interpretNumReversed 0x00280000#32 0)
    (received (sw false .field) [])) (·.stageOut) = some (.value 1310720) := by decide +kernel

/-- V-N2: bits 23 and 24. -/
theorem test_interpretEnum : after (exec (.interpretEnum 0x01800000#32 1) (received (sw false .field) []))
    (·.stageOut) = some (.enumHit (some 4)) := by decide +kernel

/-- V-N4: bits 23 to 25, in no pattern. -/
theorem test_interpretEnum_no_hit : after (exec (.interpretEnum 0x03800000#32 1) (received (sw false .field) []))
    (·.stageOut) = some (.enumHit none) := by decide +kernel

/-- V-T4: state bits 0, 1 at indices 3, 4. -/
theorem test_interpretState : after (exec (.interpretState 0x10#32) miniReceived) (·.stageOut) =
    some (.stateFlags false true) := by decide +kernel

/-- V-T6: state bits 1, 1. -/
theorem test_interpretState_none : after (exec (.interpretState 0x18#32) miniReceived) (·.stageOut) =
    some (.stateFlags false false) := by decide +kernel

/-- V-R1 through RENDER. -/
theorem test_render_numeric : after (exec (.render 0 none) (command cs 12 0 { present := 1, sa := true, sb := false }))
    (·.stageOut) = some (.indices [3, 4]) := by decide +kernel

/-- V-R11 through RENDER: entry 3, pattern 0b011. -/
theorem test_render_enum : after (exec (.render 1 (some 3)) (unmatchedCommand false .field)) (·.stageOut) =
    some (.indices [23, 24]) := by decide +kernel

/-- V-R3: a Natural run, right-aligned. -/
theorem test_renderNum_natural : after (exec (.renderNum 0 5) (unmatchedCommand false .field)) (·.stageOut) =
    some (.indices [21, 19]) := by decide +kernel

/-- V-R2: a Reversed run. -/
theorem test_renderNum_reversed : after (exec (.renderNum 0 5) (received cs [])) (·.stageOut) =
    some (.indices [1, 3]) := by decide +kernel

/-- V-R12: pattern 0b100. -/
theorem test_renderEnum : after (exec (.renderEnum 1 2) (unmatchedCommand false .field)) (·.stageOut) =
    some (.indices [25]) := by decide +kernel

/-- V-V13: tolerant. -/
theorem test_validate_tolerant : after (exec .validate (unmatchedCommand false .field)) (·.stageOut) =
    some (.validated { found := fieldOneUnmatched, wEnum := true }) := by decide +kernel

/-- V-V12: strict. -/
theorem test_validate_strict : after (exec .validate (unmatchedCommand true .field)) (·.stageOut) =
    some (.raised { code := .unknownEnumeratedValue, field := .field 1 }) := by decide +kernel

/-- V-E11: FRAME scope suppresses the fields and the state; slots 42 to 45 would hold bits of the value and the state. -/
theorem test_build_suppressed : after (exec (.build fieldOneUnmatched) (unmatchedCommand false .frame)) (fun t => (slots 2 t, (slots 46 t).drop 42))
      = some ([3, 3], [1, 2, 1, 2]) := by decide +kernel

/-- V-E10: FIELD scope suppresses only the field; pairs 21 (a bit of the value) and 22 (the state) are high. -/
theorem test_build_field_scope : after (exec (.build fieldOneUnmatched) (unmatchedCommand false .field)) (fun t => (slots 56 t).drop 42) =
      some [2, 1, 2, 1, 1, 2, 1, 2, 1, 2, 1, 2, 1, 31] := by decide +kernel

/-- V-C1. -/
theorem test_scale : after (exec (.scale 0) { received cs [21, 2] with rxlen := 52 }) (·.stageOut) =
    some (.duration 2100) := by decide +kernel

/-- V-C5: the largest product. -/
theorem test_scale_largest : after (exec (.scale 0) (received { cs with tu := 65535 } [255])) (·.stageOut) =
    some (.duration 16711425) := by decide +kernel

/-! ### The descriptor check -/

/-- V-K10: a NUMERIC field with MIN above MAX. -/
theorem test_cfgOk_numeric_bounds : cfgOk { mini with f := mini.f.set 0 { mini.f[0] with min := 4 } } = false := by
  decide +kernel

/-- R45, U12: the bounds of an ENUM field are ignored. -/
theorem test_cfgOk_enum_bounds_ignored :
    cfgOk { sw false .field with f := (sw false .field).f.set 1 { (sw false .field).f[1] with min := 4 } } = true := by
  decide +kernel

/-! ### Host accesses -/

/-- T-CS, section 0: the control word of layout entry 0. -/
theorem test_write_field_ctl : after (step { State.reset with host := [.regWrite .word 0x080 0x01170105#32] })
    (fun t => (t.d.f[0].en, t.d.f[0].req, t.d.f[0].start, t.d.f[0].stop, t.d.f[0].name, regRead t 0x080)) =
      some (true, true, 1, 23, 1, 0x01170105#32) := by decide +kernel

/-- R30: a locked descriptor takes no write. -/
theorem test_locked_write_is_ignored : after (step { miniReceived with host := [.regWrite .word 0x048 0xFFFF#32] })
    (fun t => regRead t 0x048) = some 1#32 := by decide +kernel

/-- R67, U8. -/
theorem test_misaligned_access_is_refused : step { State.reset with host := [.regRead .word 0x002] } =
    .refused (.misaligned 0x002) := by rfl

/-- R64: an unmapped offset reads 0. -/
theorem test_read_unmapped : after (step { State.reset with host := [.regRead .word 0x018] }) (·.reads) = some [0#32] := by
  decide +kernel

/-- R53, R270. -/
theorem test_reset_input : after (step { miniReceived with host := [.assertReset] })
    (fun t => (regRead t 0x004, t.lock, regRead t 0x040)) = some (0xF0#32, false, 0#32) := by decide +kernel

/-! ### Witnesses: states that meet the hypotheses of the statements -/

theorem witness_DecodeOfEncodeIsInstruction_nop : Instr.nop.wellFormed = true ∧ Instr.nop.isCommand = true := by decide

theorem witness_DecodeOfEncodeIsInstruction_reserved :
    (Instr.reserved 0xFFFFFFFF#32).wellFormed = true ∧ (Instr.reserved 0xFFFFFFFF#32).isCommand = true := by decide

theorem witness_StepRunsDecodedCommand : (withCommand 1 miniReceived).host = .regWrite .word 0x000 1 :: [] := by rfl

theorem witness_EveryCommandCompletes :
    (withCommand 0xFFFFFFFF#32 State.reset).host = .regWrite .word 0x000 0xFFFFFFFF#32 :: [] := by rfl

/-- For DecodeIsExtractThenInterpret and DecodeWritesSampledBits. -/
theorem witness_DecodeOfReceivedFrame : Ready miniReceived ∧ miniReceived.rxlen = miniReceived.d.rawlen := by
  decide +kernel

/-- For DecodeNeedsDescriptor and EncodeNeedsDescriptor: not locked. -/
theorem witness_NeedsDescriptor_unlocked : ¬ Ready { miniReceived with lock := false } := by decide +kernel

/-- For the same: locked, descriptor invalid (V-K3). -/
theorem witness_NeedsDescriptor_invalid : ¬ Ready { miniReceived with d := { mini with rawlen := 11 } } := by
  decide +kernel

theorem witness_DecodeRejectsWrongLength :
    Ready { miniReceived with rxlen := 11 } ∧ ({ miniReceived with rxlen := 11 } : State).rxlen ≠ mini.rawlen := by
  decide +kernel

/-- For EncodeIsValidateThenBuild. -/
theorem witness_EncodeOfAcceptedCommand : Ready miniCommand ∧ CommandAccepted miniCommand := by decide +kernel

/-- For CommandsHaveOneVerdict: an accepted command, and one that is not (V-V3). -/
theorem witness_CommandsHaveOneVerdict :
    (Ready miniCommand ∧ CommandAccepted miniCommand) ∧
    (Ready (command cs 12 0 { present := 1, sa := true, sb := true }) ∧
      ¬ CommandAccepted (command cs 12 0 { present := 1, sa := true, sb := true })) :=
  ⟨⟨by decide +kernel, by decide +kernel⟩, by decide +kernel, by decide +kernel⟩

/-- For EncodeReportsFirstFailure and ValidateRaisesFirstFailure: rule 1, fields (V-V4). -/
theorem witness_FirstFailure_fieldMissing :
    Ready (command cs 12 0 { present := 0, sa := true, sb := false }) ∧
      CommandRejected (command cs 12 0 { present := 0, sa := true, sb := false }) ⟨.incompleteCommand, .field 0⟩ :=
  ⟨by decide +kernel, .fieldMissing 0 (by decide +kernel)⟩

/-- Rule 1, state (V-V2). -/
theorem witness_FirstFailure_stateMissing :
    Ready (command cs 12 0 { present := 1, sa := false, sb := false }) ∧
      CommandRejected (command cs 12 0 { present := 1, sa := false, sb := false }) ⟨.incompleteCommand, .state⟩ :=
  ⟨by decide +kernel, .stateMissing (by decide +kernel) (by decide +kernel)⟩

/-- Rule 2, above MAX (V-V8). -/
theorem witness_FirstFailure_valueRejected :
    Ready (command cs 100000000 0 { present := 1, sa := true, sb := false }) ∧
      CommandRejected (command cs 100000000 0 { present := 1, sa := true, sb := false }) ⟨.fieldOutOfRange, .field 0⟩ :=
  ⟨by decide +kernel, .valueRejected 0 (by decide +kernel) (by decide +kernel) (by decide +kernel)⟩

/-- Rule 2, inside the bounds but too long for the field, the least such value (V-V7). -/
theorem witness_FirstFailure_valueTooLong :
    CommandRejected (command cs 8388608 0 { present := 1, sa := true, sb := false }) ⟨.fieldOutOfRange, .field 0⟩ :=
  .valueRejected 0 (by decide +kernel) (by decide +kernel) (by decide +kernel)

/-- Rule 3 (V-V3). -/
theorem witness_FirstFailure_stateAmbiguous :
    Ready (command cs 12 0 { present := 1, sa := true, sb := true }) ∧
      CommandRejected (command cs 12 0 { present := 1, sa := true, sb := true }) ⟨.ambiguousState, .state⟩ :=
  ⟨by decide +kernel, .stateAmbiguous (by decide +kernel) (by decide +kernel) (by decide +kernel)⟩

/-- Rule 4 (V-V12). -/
theorem witness_FirstFailure_enumUnmatched :
    Ready (unmatchedCommand true .field) ∧
      CommandRejected (unmatchedCommand true .field) ⟨.unknownEnumeratedValue, .field 1⟩ :=
  ⟨by decide +kernel, .enumUnmatched 1 (by decide +kernel) (by decide +kernel) (by decide +kernel) (by decide +kernel)
    (by decide +kernel) (by decide +kernel)⟩

theorem witness_SampleComparesSelectedSlot :
    (unmatchedCommand false .field).d.mode.half = .first ∧ miniReceived.d.mode.half = .second := by decide

theorem witness_ExtractSamplesEachPair : miniReceived.rxlen = miniReceived.d.rawlen := by decide

theorem witness_ExtractRaisesOnWrongLength : State.reset.rxlen ≠ mini.rawlen := by decide

/-- A NUMERIC or ENUM field over the given range in an otherwise reset descriptor, in the given order. -/
def oneField (o : BitOrder) (k : FieldKind) (start stop : Pos) : State :=
  { State.reset with d := { zeroDescriptor with
      mode := { zeroDescriptor.mode with order := o }
      f := #v[{ zeroField with en := true, kind := k, start := start, stop := stop }, zeroField, zeroField, zeroField] } }

/-- For NaturalOrderWeighsFromEnd and ReversedOrderWeighsFromStart: the whole vector. -/
theorem witness_BitOrder_fullWidth : (oneField .natural .numeric 0 31).d.f[(0 : FieldIx)].start.toNat ≤
    (oneField .natural .numeric 0 31).d.f[(0 : FieldIx)].stop.toNat ∧
    (oneField .natural .numeric 0 31).d.f[(0 : FieldIx)].stop.toNat < 32 := by decide

/-- For the same: one bit. -/
theorem witness_BitOrder_oneBit : (oneField .natural .numeric 31 31).d.f[(0 : FieldIx)].start.toNat ≤
    (oneField .natural .numeric 31 31).d.f[(0 : FieldIx)].stop.toNat ∧
    (oneField .natural .numeric 31 31).d.f[(0 : FieldIx)].stop.toNat < 32 := by decide

theorem witness_BitOrdersDiffer : (oneField .natural .numeric 30 31).d.f[(0 : FieldIx)].start.toNat <
    (oneField .natural .numeric 30 31).d.f[(0 : FieldIx)].stop.toNat ∧
    (oneField .natural .numeric 30 31).d.f[(0 : FieldIx)].stop.toNat < 32 := by decide

/-- A hit: entry 1 stands in the field (V-N1), no earlier one does. -/
theorem witness_EnumPatternFirstMatchWins_hit :
    let d := sw false .field
    let b : BitsVec := 0x01000000#32
    d.f[(1 : FieldIx)].start.toNat ≤ d.f[(1 : FieldIx)].stop.toNat ∧ d.f[(1 : FieldIx)].stop.toNat < 32 ∧
    (d.e[(1 : EntryIx)].valid = true ∧ d.e[(1 : EntryIx)].field = 1 ∧
      ∀ j < d.f[(1 : FieldIx)].bits, d.e[(1 : EntryIx)].pattern.getLsbD j =
        b.getLsbD (d.f[(1 : FieldIx)].start.toNat + j)) ∧
    ∀ g : EntryIx, g < 1 → ¬ (d.e[g].valid = true ∧ d.e[g].field = 1 ∧
      ∀ j < d.f[(1 : FieldIx)].bits, d.e[g].pattern.getLsbD j = b.getLsbD (d.f[(1 : FieldIx)].start.toNat + j)) := by
  decide +kernel

/-- No hit (V-N3). -/
theorem witness_EnumPatternFirstMatchWins_none :
    let d := sw false .field
    let b : BitsVec := 0#32
    ∀ e : EntryIx, ¬ (d.e[e].valid = true ∧ d.e[e].field = 1 ∧
      ∀ j < d.f[(1 : FieldIx)].bits, d.e[e].pattern.getLsbD j = b.getLsbD (d.f[(1 : FieldIx)].start.toNat + j)) := by
  decide +kernel

/-- The highest place of a two-pair state; pattern A stands. -/
theorem witness_StateIsRecognised_boundary :
    let d := { mini with stateSeg := { en := true, w2 := true, pos := 30 } }
    d.stateSeg.pos.toNat + d.stateSeg.pairs ≤ 32 ∧ StatePatternStands d d.sa 0x40000000#32 := by decide +kernel

/-- Pattern B stands, A does not (V-T4); neither stands (V-T5). -/
theorem witness_StateIsRecognised_otherClauses :
    (¬ StatePatternStands mini mini.sa 0x10#32 ∧ StatePatternStands mini mini.sb 0x10#32) ∧
    (¬ StatePatternStands mini mini.sa 0#32 ∧ ¬ StatePatternStands mini mini.sb 0#32) := by decide +kernel

/-- The clauses of InterpretReportsEveryField: disabled; NUMERIC in each order; ENUM with a hit and without; a state. -/
theorem witness_InterpretReportsEveryField :
    (sw false .field).f[(2 : FieldIx)].en = false ∧
    ((sw false .field).f[(0 : FieldIx)].en = true ∧ (sw false .field).f[(0 : FieldIx)].kind = .numeric ∧
      (sw false .field).mode.order = .natural) ∧
    (mini.f[(0 : FieldIx)].en = true ∧ mini.f[(0 : FieldIx)].kind = .numeric ∧ mini.mode.order = .reversed) ∧
    ((sw false .field).f[(1 : FieldIx)].en = true ∧ (sw false .field).f[(1 : FieldIx)].kind = .enum ∧
      (interpret (sw false .field) 0x01000000#32).present.getLsbD 1 = true ∧
      (interpret (sw false .field) 0#32).present.getLsbD 1 = false) ∧
    mini.stateSeg.en = true ∧ zeroDescriptor.stateSeg.en = false := by decide +kernel

/-- The largest value of a field of full width and of one of one bit, and each order. -/
theorem witness_RenderNumPlacesOneBits :
    (0xFFFFFFFF#32).toNat < 2 ^ (oneField .natural .numeric 0 31).d.f[(0 : FieldIx)].bits ∧
    (1#32).toNat < 2 ^ (oneField .reversed .numeric 31 31).d.f[(0 : FieldIx)].bits ∧
    (oneField .natural .numeric 0 31).d.mode.order = .natural ∧
    (oneField .reversed .numeric 31 31).d.mode.order = .reversed := by decide +kernel

theorem witness_RenderEnumPlacesPatternBits : (oneField .natural .enum 0 31).d.f[(0 : FieldIx)].start.toNat ≤
    (oneField .natural .enum 0 31).d.f[(0 : FieldIx)].stop.toNat ∧
    (oneField .natural .enum 0 31).d.f[(0 : FieldIx)].bits ≤ 32 := by decide

theorem witness_RenderDispatchesOnKind :
    (sw false .field).f[(0 : FieldIx)].kind = .numeric ∧ (sw false .field).f[(1 : FieldIx)].kind = .enum := by decide

/-- V-R1 and V-I5, Reversed order. -/
theorem witness_NumericRunReadsBack_reversed :
    (12#32).toNat < 2 ^ cs.f[(0 : FieldIx)].bits ∧
    exec (.renderNum 0 12) (received cs []) = .next { received cs [] with stageOut := .indices [3, 4] } ∧
    (∀ i < 64, cs.f[(0 : FieldIx)].Covers i → ((0x18#32).getLsbD i = true ↔ i ∈ [3, 4])) ∧
    cs.mode.order = .reversed := ⟨by decide +kernel, by rfl, by decide +kernel, by decide⟩

/-- V-R3 and V-I3, Natural order. -/
theorem witness_NumericRunReadsBack_natural :
    let s := unmatchedCommand false .field
    (5#32).toNat < 2 ^ s.d.f[(0 : FieldIx)].bits ∧
    exec (.renderNum 0 5) s = .next { s with stageOut := .indices [21, 19] } ∧
    (∀ i < 64, s.d.f[(0 : FieldIx)].Covers i → ((0x280000#32).getLsbD i = true ↔ i ∈ [21, 19])) ∧
    s.d.mode.order = .natural := ⟨by decide +kernel, by rfl, by decide +kernel, by decide⟩

/-- V-R11 and V-N2. -/
theorem witness_EnumPatternReadsBack :
    let s := unmatchedCommand false .field
    s.d.e[(3 : EntryIx)].valid = true ∧ s.d.e[(3 : EntryIx)].field = 1 ∧
    (∀ g h : EntryIx, g ≠ h → s.d.e[g].valid = true → s.d.e[g].field = 1 → s.d.e[h].valid = true →
      s.d.e[h].field = 1 → ¬ SamePattern s.d.f[(1 : FieldIx)].bits s.d.e[g].pattern s.d.e[h].pattern) ∧
    exec (.renderEnum 1 3) s = .next { s with stageOut := .indices [23, 24] } ∧
    (∀ i < 64, s.d.f[(1 : FieldIx)].Covers i → ((0x01800000#32).getLsbD i = true ↔ i ∈ [23, 24])) :=
  ⟨by decide, by decide, by decide +kernel, by rfl, by decide +kernel⟩

/-- For ValidateAcceptsCommand: tolerant mode with an unmatched value, and a field with a matched one (V-E7). -/
theorem witness_ValidateAcceptsCommand :
    CommandAccepted (unmatchedCommand false .field) ∧ EnumUnmatched (unmatchedCommand false .field) 1 ∧
    CommandAccepted (command (sw false .field) 5 2 { present := 3, sa := true, sb := false }) ∧
    Supplied (command (sw false .field) 5 2 { present := 3, sa := true, sb := false }) 1 ∧
    ∀ f : FieldIx, (sw false .field).f[f].en = true →
      (sw false .field).f[f].start.toNat ≤ (sw false .field).f[f].stop.toNat :=
  ⟨by decide +kernel, by decide +kernel, by decide +kernel, by decide +kernel, by decide +kernel⟩

/-- For BuildLaysOutFrame: the hypotheses; slot 12 beyond the frame; slots 10 and 11 of the footer; slots 6 and 9, the
ends of the state segment (k = 0 and k = 1, slot 9 the one before the footer); slot 3 of no state pair. -/
theorem witness_BuildLaysOutFrame :
    DescriptorValid miniCommand.d ∧
    (∀ f : FieldIx, Supplied miniCommand f → miniCommand.d.f[f].kind = .numeric →
      miniCommand.fval[f].toNat < 2 ^ miniCommand.d.f[f].bits) ∧
    mini.rawlen.toNat ≤ 12 ∧
    (10 < mini.rawlen.toNat ∧ mini.rawlen.toNat ≤ 10 + 2) ∧ (11 < mini.rawlen.toNat ∧ mini.rawlen.toNat ≤ 11 + 2) ∧
    (6 + 2 < mini.rawlen.toNat ∧ 6 / 2 = mini.stateSeg.pos.toNat + (0 : Fin 2).val) ∧
    (9 + 2 < mini.rawlen.toNat ∧ (1 : Fin 2).val < mini.stateSeg.pairs ∧
      9 / 2 = mini.stateSeg.pos.toNat + (1 : Fin 2).val) ∧
    ¬ StatePair mini (3 / 2) :=
  ⟨by decide +kernel, by decide +kernel, by decide, by decide, by decide, by decide, by decide, by decide⟩

/-- The same: slots 0 and 1, the header, belong to no state pair and to no pair rendered high. -/
theorem witness_BuildLaysOutFrame_header :
    0 + 2 < mini.rawlen.toNat ∧ 1 + 2 < mini.rawlen.toNat ∧ ¬ StatePair mini 0 ∧ ¬ HighPair miniCommand noMatches 0 := by
  refine ⟨by decide, by decide, by decide, ?_⟩
  rintro ⟨f, l, hs, -, he, hm⟩
  have hf : ∀ g : FieldIx, Supplied miniCommand g → g = 0 := by decide +kernel
  obtain rfl := hf f hs
  have h : StageOut.indices [2] = .indices l := congrArg State.stageOut (Host.Outcome.next.inj he)
  obtain rfl := StageOut.indices.inj h
  exact absurd hm (by decide)

/-- The same: pair 2 is rendered high, and T-SW/F with an unmatched value is suppressed. -/
theorem witness_BuildLaysOutFrame_high :
    HighPair miniCommand noMatches 2 ∧ FrameSuppressed (sw false .frame) fieldOneUnmatched :=
  ⟨⟨0, [2], by decide +kernel, by decide, by rfl, by decide⟩, by decide +kernel⟩

theorem witness_FrameIsIndependentOfOldBuffer :
    DescriptorValid miniCommand.d ∧ ({ miniCommand with raw := frame [7] } : State).raw ≠ miniCommand.raw := by
  decide +kernel

theorem witness_UnmatchedValueSuppressesFrame :
    Ready (unmatchedCommand false .frame) ∧ CommandAccepted (unmatchedCommand false .frame) ∧
    (unmatchedCommand false .frame).d.mode.nomatchScope = .frame ∧ EnumUnmatched (unmatchedCommand false .frame) 1 :=
  ⟨by decide +kernel, by decide +kernel, by decide, by decide +kernel⟩

theorem witness_ContactSensorFraming :
    let s := command cs 12 0 { present := 1, sa := false, sb := true }
    Ready s ∧ CommandAccepted s ∧ s.d.rawlen = 52 ∧ s.d.hdr = ⟨21, 2⟩ ∧ s.d.ftr = ⟨2, 34⟩ ∧
    (∀ f : FieldIx, s.d.f[f].en = true → 0 < s.d.f[f].start.toNat) ∧
    (s.d.stateSeg.en = true → 0 < s.d.stateSeg.pos.toNat) :=
  ⟨by decide +kernel, by decide +kernel, by decide, by decide, by decide, by decide +kernel, by decide⟩

theorem mini_roundTripLayout : RoundTripLayout mini :=
  ⟨by decide +kernel, by decide +kernel, by decide +kernel, by decide +kernel, by decide +kernel, by decide +kernel,
    by decide +kernel, by decide +kernel⟩

theorem cs_roundTripLayout : RoundTripLayout cs :=
  ⟨by decide +kernel, by decide +kernel, by decide +kernel, by decide +kernel, by decide +kernel, by decide +kernel,
    by decide +kernel, by decide +kernel⟩

theorem sw_roundTripLayout : RoundTripLayout (sw false .field) :=
  ⟨by decide +kernel, by decide +kernel, by decide +kernel, by decide +kernel, by decide +kernel, by decide +kernel,
    by decide +kernel, by decide +kernel⟩

theorem witness_EncodeThenDecodeReturnsCommand :
    miniCommand.lock = true ∧ RoundTripSafe miniCommand.d ∧ RoundTripCommand miniCommand :=
  ⟨by decide, ⟨mini_roundTripLayout, by decide +kernel⟩, by decide +kernel⟩

/-- With an ENUM field (T-SW is round-trip-safe; V-E7). -/
theorem witness_EncodeThenDecodeReturnsCommand_enum :
    RoundTripSafe (sw false .field) ∧
    RoundTripCommand (command (sw false .field) 2097151 2 { present := 3, sa := true, sb := false }) :=
  ⟨⟨sw_roundTripLayout, by decide +kernel⟩, by decide +kernel⟩

/-- T-CS fails only condition (e); its largest representable value (V-E4). -/
theorem witness_RoundTripWithoutMaximumBound :
    let s := command cs 8388607 0 { present := 1, sa := true, sb := false }
    s.lock = true ∧ RoundTripLayout s.d ∧ RoundTripCommand s ∧ ¬ RoundTripSafe s.d :=
  ⟨by decide, cs_roundTripLayout, by decide +kernel, fun h => absurd (h.2 0 (by decide) (by decide)) (by decide +kernel)⟩

/-- The same without a state, and with values, present bits and state flags that ENCODE ignores (V-V21). -/
theorem witness_RoundTripWithoutMaximumBound_ignored :
    let s : State := { command { cs with stateSeg := { en := false, w2 := false, pos := 24 } } 12 7
      { present := 15, sa := true, sb := true } with rxlen := 0 }
    s.lock = true ∧ RoundTripLayout s.d ∧ RoundTripCommand s ∧ s.d.f[(1 : FieldIx)].en = false ∧
    s.d.stateSeg.en = false :=
  ⟨by decide, ⟨by decide +kernel, by decide +kernel, by decide +kernel, by decide +kernel, by decide +kernel,
    by decide +kernel, by decide +kernel, by decide +kernel⟩, by decide +kernel, by decide, by decide⟩

/-- Two states that differ outside the frame. -/
theorem witness_DecodeDependsOnFrameAlone :
    (∀ i : SlotIx, i.val < mini.rawlen.toNat → (received mini (miniFrame ++ [1])).raw[i] = miniReceived.raw[i]) ∧
    (received mini (miniFrame ++ [1])).raw ≠ miniReceived.raw := by decide +kernel

/-- Two states that differ in the value of a field that is not enabled. -/
theorem witness_EncodeDependsOnCommandAlone :
    (∀ f : FieldIx, Supplied miniCommand f →
      ({ miniCommand with fval := #v[2, 9, 0, 0] } : State).fval[f] = miniCommand.fval[f]) ∧
    ({ miniCommand with fval := #v[2, 9, 0, 0] } : State).fval ≠ miniCommand.fval := by decide +kernel

theorem witness_ReadChangesNothing : ({ State.reset with host := [.regRead .word 0x3FC] } : State).host =
    .regRead .word 0x3FC :: [] ∧ WholeWord .word 0x3FC := ⟨by rfl, by decide⟩

theorem witness_OnlyOutsideAccessesAreRefused :
    ¬ WholeWord .byte 0 ∧ ¬ WholeWord .word 0x3FE ∧ ¬ WholeWord .word 0x400 ∧ WholeWord .word 0x3FC := by decide

theorem witness_UnmappedOffsetsAreInert : [0x018, 0x01C, 0x030, 0x03C, 0x08C, 0x0BC, 0x0CC, 0x13C, 0x140, 0x1FC].all
    (fun a => decide (WholeWord .word a ∧ Unmapped a)) = true ∧ ¬ Unmapped 0x014 ∧ ¬ Unmapped 0x200 := by
  decide +kernel

theorem witness_ProtectedRegistersIgnoreWrites :
    ({ miniReceived with host := [.regWrite .word 0x13C 1] } : State).host = .regWrite .word 0x13C 1 :: [] ∧
    miniReceived.lock = true ∧ [0x004, 0x014, 0x300, 0x3FC, 0x040, 0x13C].all (fun a => decide (4 ∣ a)) = true :=
  ⟨by rfl, by decide, by decide⟩

/-- Each clause of DataRegisterWriteIsLocal, the arrays at their ends. -/
theorem witness_DataRegisterWriteIsLocal (a : Nat) (_h : a ∈ [0x00C, 0x010, 0x020, 0x02C, 0x200, 0x2FC]) :
    ({ State.reset with host := [.regWrite .word a 1] } : State).host = .regWrite .word a 1 :: [] := by rfl

/-- The ends of the descriptor space, unlocked. -/
theorem witness_DescriptorWriteReadsBack :
    State.reset.lock = false ∧ ¬ Unmapped 0x040 ∧ ¬ Unmapped 0x138 ∧ ¬ Unmapped 0x080 ∧ 4 ∣ 0x138 ∧
    ({ State.reset with host := [.regWrite .word 0x138 1] } : State).host = .regWrite .word 0x138 1 :: [] := by
  decide +kernel

theorem witness_TxdurReadsScaledCode :
    ({ State.reset with host := [.regWrite .word 0x3FC 1] } : State).host =
      .regWrite .word (0x300 + 4 * (63 : SlotIx).val) 1 :: [] := by rfl

theorem witness_CtrlWriteOnlyLocks :
    ({ State.reset with host := [.regWrite .word 0x008 1] } : State).host = .regWrite .word 0x008 1 :: [] := by rfl

theorem witness_IdleWithoutAccess : State.reset.host = [] := by rfl

theorem witness_ResetInputClearsControl :
    ({ miniReceived with host := [.assertReset] } : State).host = .assertReset :: [] := by rfl

/-- A locked state that is about to write a descriptor register. -/
theorem witness_LockedDescriptorIsImmutable :
    let s := { miniReceived with host := [.regWrite .word 0x048 7] }
    s.lock = true ∧ s.host.head? ≠ some .assertReset ∧ step s = .next { s with host := [] } :=
  ⟨by decide, by decide, by rfl⟩

/-- A sound `STATUS` with an error under a locked descriptor, about to run NOP. -/
theorem witness_StatusStaysSound :
    let s := withCommand 0 { miniReceived with status :=
      { result := .fieldOutOfRange, errField := .field 0, wEnum := false, outValid := false } }
    StatusSound s ∧ step s = .next { s with host := [] } :=
  ⟨⟨by decide, by decide, ⟨0, by decide +kernel⟩, by decide, by decide +kernel⟩, by rfl⟩

end Sys2Proof.Tests
end

section
/-!
PROOFS. The register space: the address map in both directions, what a read at an offset returns, and the bits of the
register words of several fields.
-/

namespace Sys2Proof.Machine

/-! ### The address map (spec/20_memory.md R63) -/

/-- The map finds every register at its offset. -/
theorem regOfOffset_offset (r : Reg) : regOfOffset r.offset = some r := by
  cases r
  case fval f => revert f; decide
  case dSa k => revert k; decide
  case dSb k => revert k; decide
  case dFieldCtl f => revert f; decide
  case dFieldMin f => revert f; decide
  case dFieldMax f => revert f; decide
  case dEntryCtl e => revert e; decide
  case dEntryValue e => revert e; decide
  case dEntryPattern e => revert e; decide
  case raw i => revert i; decide
  case txdur i => revert i; decide
  all_goals rfl

theorem offset_of_regOfFixed : ∀ w < 0x20, ∀ r ∈ regOfFixed w, r.offset = 4 * w := by decide

theorem regOfFixed_eq_none : ∀ w < 0x20, regOfFixed w = none → w = 6 ∨ w = 7 ∨ (12 ≤ w ∧ w ≤ 15) := by decide

theorem offset_of_regOfWordIndex {w : Nat} {r : Reg} (h : regOfWordIndex w = some r) : r.offset = 4 * w := by
  rw [regOfWordIndex] at h
  split at h
  · exact offset_of_regOfFixed w ‹_› r h
  · split_ifs at h <;> cases h <;> simp only [Reg.offset, Fin.ofNat] <;> omega

/-- A register the map finds at an offset stands there. -/
theorem offset_of_regOfOffset {a : Nat} {r : Reg} (h : regOfOffset a = some r) : r.offset = a := by
  rw [regOfOffset] at h
  split at h
  · rw [offset_of_regOfWordIndex h]; omega
  · cases h

theorem regOfWordIndex_eq_none {w : Nat} (hw : w < 0x100) (h : regOfWordIndex w = none) : Unmapped (4 * w) := by
  rw [regOfWordIndex] at h
  split at h
  · have := regOfFixed_eq_none w ‹_› h
    simp only [Unmapped]; omega
  · simp only [Unmapped]
    split_ifs at h
    · exact .inr (.inr (.inr (.inl ⟨Fin.ofNat 4 ((w - 0x20) / 4), by simp only [Fin.ofNat]; omega⟩)))
    · exact .inr (.inr (.inr (.inr (.inl ⟨Fin.ofNat 8 ((w - 0x30) / 4), by simp only [Fin.ofNat]; omega⟩))))
    · omega

/-- Every word of the space that is not listed as unmapped holds a register. -/
theorem exists_reg_of_not_unmapped {a : Nat} (h : WholeWord .word a) (hu : ¬ Unmapped a) :
    ∃ r, regOfOffset a = some r := by
  obtain ⟨-, h4, hlt⟩ := h
  rw [← Option.ne_none_iff_exists']
  intro hn
  rw [regOfOffset, if_pos (by omega)] at hn
  have := regOfWordIndex_eq_none (by omega) hn
  rw [Nat.mul_div_cancel' h4] at this
  exact hu this

/-- A read at a register's offset returns the register (R62). -/
theorem regRead_offset (s : State) (r : Reg) : regRead s r.offset = readReg s r := by
  rw [regRead, regOfOffset_offset]

theorem wholeWord_offset (r : Reg) : WholeWord .word r.offset := by
  refine ⟨rfl, ?_, regOfOffset_lt (regOfOffset_offset r)⟩
  cases r <;> simp only [Reg.offset] <;> omega

/-! ### The bits of the register words -/

theorem cmdfWord_getLsbD (x : CmdFlags) (i : Nat) : (cmdfWord x).getLsbD i =
    if i < 4 then x.present.getLsbD i else if i = 8 then x.sa else if i = 9 then x.sb else false := by
  rw [cmdfWord]
  change BitVec.getLsbD (w := 22 + 1 + 1 + 4 + 4) _ i = _
  simp only [BitVec.getLsbD_append, BitVec.getLsbD_zero, BitVec.getLsbD_ofBool]
  grind

theorem modeWord_getLsbD (x : Mode) (i : Nat) : (modeWord x).getLsbD i =
    if i = 0 then x.order == .reversed else if i = 1 then x.half == .second else if i = 2 then x.strictEnum
    else if i = 3 then x.nomatchScope == .frame else false := by
  rw [modeWord]
  change BitVec.getLsbD (w := 28 + 1 + 1 + 1 + 1) _ i = _
  simp only [BitVec.getLsbD_append, BitVec.getLsbD_zero, BitVec.getLsbD_ofBool]
  grind

theorem stateSegWord_getLsbD (x : StateSeg) (i : Nat) : (stateSegWord x).getLsbD i =
    if i = 0 then x.en else if i = 1 then x.w2 else if i < 8 then false else x.pos.getLsbD (i - 8) := by
  rw [stateSegWord]
  change BitVec.getLsbD (w := 18 + 6 + 6 + 1 + 1) _ i = _
  simp only [BitVec.getLsbD_append, BitVec.getLsbD_zero, BitVec.getLsbD_ofBool]
  grind

theorem fieldCtlWord_getLsbD (x : FieldEntry) (i : Nat) : (fieldCtlWord x).getLsbD i =
    if i = 0 then x.en else if i = 1 then x.kind == .enum else if i = 2 then x.req else if i < 8 then false
    else if i < 16 then x.start.getLsbD (i - 8) else if i < 24 then x.stop.getLsbD (i - 16)
    else x.name.getLsbD (i - 24) := by
  rw [fieldCtlWord]
  change BitVec.getLsbD (w := 8 + 2 + 6 + 2 + 6 + 5 + 1 + 1 + 1) _ i = _
  simp only [BitVec.getLsbD_append, BitVec.getLsbD_zero, BitVec.getLsbD_ofBool]
  rcases Nat.lt_or_ge i 8 with h | h
  · grind
  · have h0 : ¬ i < 1 ∧ ¬ i - 1 < 1 ∧ ¬ i - 1 - 1 < 1 ∧ ¬ i - 1 - 1 - 1 < 5 := by omega
    simp only [h0, if_false]
    grind

theorem entryCtlWord_getLsbD (x : EnumEntry) (i : Nat) : (entryCtlWord x).getLsbD i =
    if i = 0 then x.valid else if i = 1 then false
    else (BitVec.ofNat 2 x.field.val).getLsbD (i - 2) := by
  rw [entryCtlWord]
  change BitVec.getLsbD (w := 28 + 2 + 1 + 1) _ i = _
  simp only [BitVec.getLsbD_append, BitVec.getLsbD_zero, BitVec.getLsbD_ofBool]
  grind

/-! ### The fields of the register words -/

/-- A field of a word, given bit by bit. -/
theorem extractLsb'_eq_of_getLsbD {w : Word} {a n : Nat} {x : BitVec n}
    (h : ∀ i < n, w.getLsbD (a + i) = x.getLsbD i) : w.extractLsb' a n = x := by
  apply BitVec.eq_of_getLsbD_eq
  intro i hi
  rw [BitVec.getLsbD_extractLsb', h i hi]
  simp [hi]

theorem statusWord_result (s : State) : (statusWord s).extractLsb' 0 4 = s.status.result.code :=
  extractLsb'_eq_of_getLsbD fun i hi => by rw [statusWord_getLsbD]; grind

theorem statusWord_errField (s : State) : (statusWord s).extractLsb' 4 4 = s.status.errField.code :=
  extractLsb'_eq_of_getLsbD fun i hi => by rw [statusWord_getLsbD]; grind

theorem statusWord_high (s : State) : (statusWord s).extractLsb' 12 20 = 0 :=
  extractLsb'_eq_of_getLsbD fun i hi => by rw [statusWord_getLsbD]; grind

/-- The low 16 bits of a pair word are the pair (R38). -/
theorem holdsPair_pairWord (p : Pair) : HoldsPair (pairWord p) p := by
  refine ⟨?_, ?_, ?_⟩
  all_goals exact extractLsb'_eq_of_getLsbD fun i hi => by rw [pairWord_getLsbD]; grind

theorem modeWord_fields (x : Mode) : (modeWord x).getLsbD 0 = decide (x.order = .reversed) ∧
    (modeWord x).getLsbD 1 = decide (x.half = .second) ∧ (modeWord x).getLsbD 2 = x.strictEnum ∧
    (modeWord x).getLsbD 3 = decide (x.nomatchScope = .frame) ∧ (modeWord x).extractLsb' 4 28 = 0 := by
  refine ⟨modeWord_getLsbD x 0, modeWord_getLsbD x 1, modeWord_getLsbD x 2, modeWord_getLsbD x 3, ?_⟩
  exact extractLsb'_eq_of_getLsbD fun i hi => by rw [modeWord_getLsbD]; grind

theorem stateSegWord_fields (x : StateSeg) : (stateSegWord x).getLsbD 0 = x.en ∧ (stateSegWord x).getLsbD 1 = x.w2 ∧
    (stateSegWord x).extractLsb' 2 6 = 0 ∧ (stateSegWord x).extractLsb' 8 6 = x.pos ∧
    (stateSegWord x).extractLsb' 14 18 = 0 := by
  refine ⟨stateSegWord_getLsbD x 0, stateSegWord_getLsbD x 1, ?_, ?_, ?_⟩
  all_goals exact extractLsb'_eq_of_getLsbD fun i hi => by rw [stateSegWord_getLsbD]; grind

theorem fieldCtlWord_fields (x : FieldEntry) : (fieldCtlWord x).getLsbD 0 = x.en ∧
    (fieldCtlWord x).getLsbD 1 = decide (x.kind = .enum) ∧ (fieldCtlWord x).getLsbD 2 = x.req ∧
    (fieldCtlWord x).extractLsb' 3 5 = 0 ∧ (fieldCtlWord x).extractLsb' 8 6 = x.start ∧
    (fieldCtlWord x).extractLsb' 14 2 = 0 ∧ (fieldCtlWord x).extractLsb' 16 6 = x.stop ∧
    (fieldCtlWord x).extractLsb' 22 2 = 0 ∧ (fieldCtlWord x).extractLsb' 24 8 = x.name := by
  refine ⟨fieldCtlWord_getLsbD x 0, fieldCtlWord_getLsbD x 1, fieldCtlWord_getLsbD x 2, ?_, ?_, ?_, ?_, ?_, ?_⟩
  all_goals exact extractLsb'_eq_of_getLsbD fun i hi => by rw [fieldCtlWord_getLsbD]; grind

theorem entryCtlWord_fields (x : EnumEntry) : (entryCtlWord x).getLsbD 0 = x.valid ∧
    (entryCtlWord x).getLsbD 1 = false ∧ ((entryCtlWord x).extractLsb' 2 2).toNat = x.field.val ∧
    (entryCtlWord x).extractLsb' 4 28 = 0 := by
  refine ⟨entryCtlWord_getLsbD x 0, entryCtlWord_getLsbD x 1, ?_, ?_⟩
  · have h : (entryCtlWord x).extractLsb' 2 2 = BitVec.ofNat 2 x.field.val :=
      extractLsb'_eq_of_getLsbD fun i hi => by rw [entryCtlWord_getLsbD]; grind
    rw [h, BitVec.toNat_ofNat, Nat.mod_eq_of_lt x.field.isLt]
  · exact extractLsb'_eq_of_getLsbD fun i hi => by rw [entryCtlWord_getLsbD]; grind

/-- A read at a pair register's offset returns its pair. -/
theorem holdsPair_regRead {s : State} {r : Reg} {p : Pair} (h : readReg s r = pairWord p) :
    HoldsPair (regRead s r.offset) p := by
  rw [regRead_offset, h]
  exact holdsPair_pairWord p

end Sys2Proof.Machine
end

section
/-!
PROOFS. Reads and writes of single registers, and the reset input.
-/

namespace Sys2Proof.Machine

/-- Settles O5: the step unfolds to the write of `CMD`. -/
theorem stepRunsDecodedCommand : Obligations.StepRunsDecodedCommand := by
  intro s w rest
  refine ⟨fun hh => ?_, regRead_offset s .cmd⟩
  have hd : dropEvent s = { s with host := rest } := by rw [dropEvent, hh]; rfl
  rw [step, hostStep, hh, ← hd]
  exact hostWrite_eq (wholeWord_offset .cmd) w (dropEvent s)

/-- Settles O48: the register at each offset, read; `CMDF` bit by bit. -/
theorem dataRegistersReadAsHeld : Obligations.DataRegistersReadAsHeld := fun s =>
  ⟨regRead_offset s .cmd, regRead_offset s .rxlen, regRead_offset s .bits, fun f => regRead_offset s (.fval f),
    fun i => regRead_offset s (.raw i), fun i => by
      rw [show regRead s 0x010 = cmdfWord s.cmdf from regRead_offset s .cmdf, cmdfWord_getLsbD]⟩

/-- Settles O51: the step is the write of `CTRL`, and a read of it is the lock zero-extended. -/
theorem ctrlWriteOnlyLocks : Obligations.CtrlWriteOnlyLocks := by
  intro s v rest hh
  refine ⟨step_write hh (wholeWord_offset .ctrl) (regOfOffset_offset .ctrl) (by decide), ?_⟩
  rw [show regRead s 0x008 = (BitVec.ofBool s.lock).setWidth 32 from regRead_offset s .ctrl]
  cases s.lock <;> rfl

/-- Settles O52: the bits of the status word, with `CFG_OK` as the descriptor check. -/
theorem statusWordLayout : Obligations.StatusWordLayout := by
  intro s
  rw [show regRead s 0x004 = statusWord s from regRead_offset s .status, statusWord_result, statusWord_errField]
  refine ⟨?_, ?_, ?_, ?_, ?_, ?_, statusWord_high s⟩
  · cases s.status.result <;> rfl
  · cases s.status.errField with
    | field f => simp only [ErrField.code, BitVec.toNat_ofNat]; omega
    | state => rfl
    | noField => rfl
  · exact statusWord_getLsbD s 8
  · exact statusWord_getLsbD s 9
  · rw [show (statusWord s).getLsbD 10 = cfgOk s.d from statusWord_getLsbD s 10, cfgOk_iff]
  · exact statusWord_getLsbD s 11

/-- Settles O36: the register is the exact scaled view, and it takes no write. -/
theorem txdurReadsScaledCode : Obligations.TxdurReadsScaledCode := by
  intro s i
  have hr : (regRead s (0x300 + 4 * i.val)).toNat = (scale s i).toNat := by
    rw [show regRead s (0x300 + 4 * i.val) = (scale s i).setWidth 32 from regRead_offset s (.txdur i)]
    exact BitVec.toNat_setWidth_of_le (by decide)
  refine ⟨hr.trans (scale_toNat s i), hr ▸ (scale s i).isLt, fun v rest hh => ?_⟩
  exact step_write hh (wholeWord_offset (.txdur i)) (regOfOffset_offset (.txdur i)) nofun

/-- Settles O49: the word of each descriptor register, field by field. -/
theorem descriptorRegistersReadAsHeld : Obligations.DescriptorRegistersReadAsHeld := by
  intro s
  refine ⟨⟨regRead_offset s .dRawlen, regRead_offset s .dBitlen, regRead_offset s .dTu, regRead_offset s .dPulse,
      regRead_offset s .dCategory, regRead_offset s .dSentinel⟩, ?_,
    ⟨holdsPair_regRead (r := .dHdr) rfl, holdsPair_regRead (r := .dFtr) rfl, holdsPair_regRead (r := .dLow) rfl,
      holdsPair_regRead (r := .dHigh) rfl, holdsPair_regRead (r := .dSa 0) rfl, holdsPair_regRead (r := .dSa 1) rfl,
      holdsPair_regRead (r := .dSb 0) rfl, holdsPair_regRead (r := .dSb 1) rfl⟩, ?_, fun f => ?_, fun e => ?_⟩
  · rw [show regRead s 0x054 = modeWord s.d.mode from regRead_offset s .dMode]
    exact modeWord_fields s.d.mode
  · rw [show regRead s 0x06C = stateSegWord s.d.stateSeg from regRead_offset s .dState]
    exact stateSegWord_fields s.d.stateSeg
  · rw [show regRead s (0x080 + 16 * f.val) = fieldCtlWord s.d.f[f] from regRead_offset s (.dFieldCtl f)]
    obtain ⟨hen, hkind, hreq, h3, hstart, h14, hstop, h22, hname⟩ := fieldCtlWord_fields s.d.f[f]
    exact ⟨hen, hkind, hreq, h3, hstart, h14, hstop, h22, hname, regRead_offset s (.dFieldMin f),
      regRead_offset s (.dFieldMax f)⟩
  · rw [show regRead s (0x0C0 + 16 * e.val) = entryCtlWord s.d.e[e] from regRead_offset s (.dEntryCtl e)]
    obtain ⟨hvalid, h1, hfield, h4⟩ := entryCtlWord_fields s.d.e[e]
    exact ⟨hvalid, h1, hfield, h4, regRead_offset s (.dEntryValue e), regRead_offset s (.dEntryPattern e)⟩

/-! ### The reset values -/

/-- While the descriptor is at 0 every descriptor register reads 0 (R53). -/
theorem readReg_zeroDescriptor {s : State} (hd : s.d = zeroDescriptor) {r : Reg} (h : 0x040 ≤ r.offset)
    (h' : r.offset < 0x140) : readReg s r = 0 := by
  cases r
  case cmd | status | ctrl | rxlen | cmdf | bits | fval | raw | txdur => simp only [Reg.offset] at h h'; omega
  case dSa k | dSb k | dFieldCtl k | dFieldMin k | dFieldMax k | dEntryCtl k | dEntryValue k | dEntryPattern k =>
    simp only [readReg, hd, zeroDescriptor, Fin.getElem_fin, Vector.getElem_replicate]; rfl
  all_goals rw [readReg, hd]; rfl

theorem regRead_zeroDescriptor {s : State} (hd : s.d = zeroDescriptor) {a : Nat} (h : 0x040 ≤ a) (h' : a < 0x140) :
    regRead s a = 0 := by
  rw [regRead]
  split
  · rename_i r hr
    obtain rfl := offset_of_regOfOffset hr
    exact readReg_zeroDescriptor hd h h'
  · rfl

theorem cfgOk_zeroDescriptor : cfgOk zeroDescriptor = false := by decide

/-- Settles O54: the step is the reset input, whose descriptor is all 0; so is every scaled slot. -/
theorem resetInputClearsControl : Obligations.ResetInputClearsControl := by
  intro s rest hh
  have hd : (resetInput (dropEvent s)).d = zeroDescriptor := rfl
  refine ⟨resetInput (dropEvent s), by rw [step, hostStep, hh]; rfl, by simp [hh], rfl, rfl, ?_, ?_,
    fun a => regRead_zeroDescriptor hd, fun i => ?_⟩
  · rw [show regRead (resetInput (dropEvent s)) 0x004 = statusWord (resetInput (dropEvent s)) from
      regRead_offset _ .status, statusWord, hd, cfgOk_zeroDescriptor, resetInput_lock, resetInput_status]
    rfl
  · rw [show regRead (resetInput (dropEvent s)) 0x010 = cmdfWord (resetInput (dropEvent s)).cmdf from
      regRead_offset _ .cmdf, resetInput_cmdf]
    rfl
  · have h0 : scale (resetInput (dropEvent s)) i = 0 := by
      apply BitVec.eq_of_toNat_eq
      rw [scale_toNat, hd]
      exact Nat.mul_zero _
    rw [show regRead (resetInput (dropEvent s)) (0x300 + 4 * i.val) = _ from regRead_offset _ (.txdur i), readReg, h0]
    rfl

/-- Settles O55: the descriptor of the state after reset is all 0, and `RAWLEN = 0` fails the check. -/
theorem resetStateReadsAsSpecified : Obligations.ResetStateReadsAsSpecified := by
  refine ⟨?_, regRead_offset _ .ctrl, regRead_offset _ .rxlen, regRead_offset _ .cmdf,
    fun a => regRead_zeroDescriptor rfl, ?_⟩
  · rw [show regRead State.reset 0x004 = statusWord State.reset from regRead_offset _ .status, statusWord,
      show cfgOk State.reset.d = false from cfgOk_zeroDescriptor]
    rfl
  · rw [← cfgOk_iff]
    exact Bool.eq_false_iff.1 cfgOk_zeroDescriptor

/-- Settles O59: NONE without a field and without a flag claims nothing of the descriptor. -/
theorem resetStatusIsSound : Obligations.ResetStatusIsSound := ⟨by decide, by decide, rfl⟩

/-! ### Writing a descriptor register -/

/-- The registers of the descriptor are those from 0x040 up to 0x140 (R63). -/
abbrev Reg.InDescriptor (r : Reg) : Prop := 0x040 ≤ r.offset ∧ r.offset < 0x140

/-- The bits a descriptor register has (R31 to R46). -/
def descriptorMask : Reg → Word
  | .dRawlen => 0x7F
  | .dBitlen => 0x3F
  | .dTu | .dHdr | .dFtr | .dLow | .dHigh | .dSa _ | .dSb _ => 0xFFFF
  | .dPulse | .dCategory | .dSentinel => 0xFF
  | .dMode => 0xF
  | .dState => 0x3F03
  | .dFieldCtl _ => 0xFF3F3F07
  | .dEntryCtl _ => 0xD
  | _ => 0xFFFFFFFF

/-- The same bits by offset. -/
theorem descriptorMask_eq {r : Reg} (h : r.InDescriptor) : descriptorMask r =
    if r.offset = 0x040 then 0x7F else if r.offset = 0x044 then 0x3F else if r.offset = 0x048 then 0xFFFF
    else if r.offset = 0x04C ∨ r.offset = 0x050 ∨ r.offset = 0x058 then 0xFF else if r.offset = 0x054 then 0xF
    else if r.offset < 0x06C then 0xFFFF else if r.offset = 0x06C then 0x3F03 else if r.offset < 0x080 then 0xFFFF
    else if r.offset < 0x0C0 then (if r.offset % 16 = 0 then 0xFF3F3F07 else 0xFFFFFFFF)
    else if r.offset % 16 = 0 then 0xD else 0xFFFFFFFF := by
  obtain ⟨h, h'⟩ := h
  cases r
  case cmd | status | ctrl | rxlen | cmdf | bits | fval | raw | txdur => simp only [Reg.offset] at h h'; omega
  case dSa k | dSb k => revert k; decide
  case dFieldCtl f | dFieldMin f | dFieldMax f => revert f; decide
  case dEntryCtl e | dEntryValue e | dEntryPattern e => revert e; decide
  all_goals rfl

/-- A register of `n` bits keeps the low `n` bits of a written word. -/
theorem setWidth_setWidth_eq_and (n : Nat) (v : Word) :
    (v.setWidth n).setWidth 32 = v &&& BitVec.ofNat 32 (2 ^ n - 1) := by
  ext i hi
  rw [BitVec.getElem_and, BitVec.getElem_setWidth, BitVec.getLsbD_setWidth, BitVec.getLsbD_eq_getElem hi,
    Bool.and_comm]
  congr 1
  rw [← BitVec.getLsbD_eq_getElem, BitVec.getLsbD_ofNat, Nat.testBit_two_pow_sub_one]
  simp [hi]

/-- An unlocked write to a descriptor register writes the descriptor (R30). -/
theorem writeReg_descriptor {r : Reg} (h : r.InDescriptor) {s : State} (hl : s.lock = false) (v : Word) :
    writeReg r v s = { s with d := writeDescriptor s.d r v } := by
  obtain ⟨h, h'⟩ := h
  cases r
  case cmd | status | ctrl | rxlen | cmdf | bits | fval | raw | txdur => simp only [Reg.offset] at h h'; omega
  all_goals rw [writeReg, hl]; rfl

/-- A written descriptor register reads back the bits it has. -/
theorem readReg_writeDescriptor_same {r : Reg} (h : r.InDescriptor) (s t : State) (v : Word)
    (ht : t.d = writeDescriptor s.d r v) : readReg t r = v &&& descriptorMask r := by
  obtain ⟨h, h'⟩ := h
  cases r
  case cmd | status | ctrl | rxlen | cmdf | bits | fval | raw | txdur => simp only [Reg.offset] at h h'; omega
  case dRawlen | dBitlen | dTu | dPulse | dCategory | dSentinel =>
    rw [readReg, ht]; exact setWidth_setWidth_eq_and _ v
  case dMode => rw [readReg, ht]; exact modeWord_modeOfWord v
  case dState => rw [readReg, ht]; exact stateSegWord_stateSegOfWord v
  case dHdr | dFtr | dLow | dHigh => rw [readReg, ht]; exact pairWord_pairOfWord v
  case dSa k | dSb k => simp [readReg, ht, writeDescriptor, pairWord_pairOfWord, descriptorMask]
  case dFieldCtl f => simp [readReg, ht, writeDescriptor, fieldCtlWord_fieldWithCtl, descriptorMask]
  case dEntryCtl e => simp [readReg, ht, writeDescriptor, entryCtlWord_entryWithCtl, descriptorMask]
  case dFieldMin k | dFieldMax k | dEntryValue k | dEntryPattern k =>
    simp only [readReg, ht, writeDescriptor, descriptorMask, Fin.getElem_fin, Vector.getElem_set_self]
    exact (BitVec.and_allOnes).symm

theorem writeDescriptor_sa (d : Descriptor) (r : Reg) (v : Word) (k : Fin 2) :
    (writeDescriptor d r v).sa[k] = if r = .dSa k then pairOfWord v else d.sa[k] := by
  cases r
  case dSa j => simp [writeDescriptor, Vector.getElem_set, Fin.ext_iff]
  all_goals rfl

theorem writeDescriptor_sb (d : Descriptor) (r : Reg) (v : Word) (k : Fin 2) :
    (writeDescriptor d r v).sb[k] = if r = .dSb k then pairOfWord v else d.sb[k] := by
  cases r
  case dSb j => simp [writeDescriptor, Vector.getElem_set, Fin.ext_iff]
  all_goals rfl

theorem writeDescriptor_f (d : Descriptor) (r : Reg) (v : Word) (f : FieldIx) :
    (writeDescriptor d r v).f[f] = if r = .dFieldCtl f then fieldWithCtl v d.f[f]
      else if r = .dFieldMin f then { d.f[f] with min := v }
      else if r = .dFieldMax f then { d.f[f] with max := v } else d.f[f] := by
  cases r
  case dFieldCtl g | dFieldMin g | dFieldMax g =>
    by_cases h : g = f
    · subst h; simp [writeDescriptor]
    · simp [writeDescriptor, Fin.val_inj, h]
  all_goals rfl

theorem writeDescriptor_e (d : Descriptor) (r : Reg) (v : Word) (e : EntryIx) :
    (writeDescriptor d r v).e[e] = if r = .dEntryCtl e then entryWithCtl v d.e[e]
      else if r = .dEntryValue e then { d.e[e] with value := v }
      else if r = .dEntryPattern e then { d.e[e] with pattern := v } else d.e[e] := by
  cases r
  case dEntryCtl g | dEntryValue g | dEntryPattern g =>
    by_cases h : g = e
    · subst h; simp [writeDescriptor]
    · simp [writeDescriptor, Fin.val_inj, h]
  all_goals rfl

/-- A write of a descriptor register leaves every other one as it was. -/
theorem readReg_writeDescriptor_ne {r q : Reg} (hq : q.InDescriptor) (hne : r ≠ q) (s t : State) (v : Word)
    (ht : t.d = writeDescriptor s.d r v) : readReg t q = readReg s q := by
  obtain ⟨h, h'⟩ := hq
  cases q
  case cmd | status | ctrl | rxlen | cmdf | bits | fval | raw | txdur => simp only [Reg.offset] at h h'; omega
  case dSa k => rw [readReg, ht, writeDescriptor_sa, if_neg hne]; rfl
  case dSb k => rw [readReg, ht, writeDescriptor_sb, if_neg hne]; rfl
  case dFieldCtl f | dFieldMin f | dFieldMax f =>
    simp only [readReg, ht, writeDescriptor_f, hne, if_false]; split_ifs <;> rfl
  case dEntryCtl e | dEntryValue e | dEntryPattern e =>
    simp only [readReg, ht, writeDescriptor_e, hne, if_false]; split_ifs <;> rfl
  all_goals rw [readReg, ht]; cases r <;> simp [writeDescriptor, readReg] at hne ⊢

/-- Settles O50: both offsets are resolved to their registers, then the write rules of the descriptor apply. -/
theorem descriptorWriteReadsBack : Obligations.DescriptorWriteReadsBack := by
  intro s a b v rest hh hl h4 ha ha' hu
  obtain ⟨r, hr⟩ := exists_reg_of_not_unmapped ⟨rfl, h4, by omega⟩ hu
  obtain rfl := offset_of_regOfOffset hr
  have hd : r.InDescriptor := ⟨ha, ha'⟩
  have hc : r ≠ .cmd := by rintro rfl; exact absurd ha (by decide)
  refine ⟨writeDescriptor s.d r v, descriptorMask r, ?_, ?_, fun hb hb' hne => ?_, descriptorMask_eq hd⟩
  · rw [step_write hh (wholeWord_offset r) hr hc, writeReg_descriptor hd (by exact hl)]
  · rw [regRead_offset]
    exact readReg_writeDescriptor_same hd s _ v rfl
  · rw [regRead, regRead]
    cases hq : regOfOffset b with
    | none => rfl
    | some q =>
      obtain rfl := offset_of_regOfOffset hq
      exact readReg_writeDescriptor_ne ⟨hb, hb'⟩ (fun h => hne (by rw [h])) s _ v rfl

end Sys2Proof.Machine
end

section
/-!
PROOFS. What every step keeps: the lock and the descriptor once locked, and the soundness of `STATUS`.
-/

namespace Sys2Proof.Machine

/-! ### What a command word starts -/

/-- A command word runs NOP, DECODE, ENCODE or a reserved command (spec/30_encoding.md R92, R93). -/
theorem exec_decodeWord_cases (w : Word) (s : State) :
    exec (decodeWord w) s = .next s ∨ exec (decodeWord w) s = execDecode s ∨ exec (decodeWord w) s = execEncode s ∨
      exec (decodeWord w) s = .next (raise { code := .badCommand, field := .noField } s) := by
  rw [decodeWord]
  split_ifs
  · exact .inl rfl
  · exact .inr (.inl rfl)
  · exact .inr (.inr (.inl rfl))
  · exact .inr (.inr (.inr rfl))
  · exact .inr (.inr (.inr rfl))

/-- What a command leaves of the state: the lock and the descriptor, and in `STATUS` what was there, success under a
locked, valid descriptor, or the raise of an error that could occur there. -/
inductive CommandOutcome (s t : State) : Prop where
  | kept (h : t.status = s.status)
  | succeeded (hr : Ready s) (w : Bool)
      (h : t.status = { result := .ok, errField := .noField, wEnum := w, outValid := true })
  | notReady (h : t.status = { result := .badDescriptor, errField := .noField, wEnum := false, outValid := false })
  | badCommand (h : t.status = { result := .badCommand, errField := .noField, wEnum := false, outValid := false })
  | wrongLength (hr : Ready s)
      (h : t.status = { result := .invalidFrameLength, errField := .noField, wEnum := false, outValid := false })
  | rejected (hr : Ready s) (r : Raise) (hj : CommandRejected s r)
      (h : t.status = { result := r.code, errField := r.field, wEnum := false, outValid := false })

theorem exec_decodeWord_outcome {w : Word} {s t : State} (h : exec (decodeWord w) s = .next t) :
    t.lock = s.lock ∧ t.d = s.d ∧ CommandOutcome s t := by
  rcases exec_decodeWord_cases w s with e | e | e | e <;> rw [e] at h
  · cases h
    exact ⟨rfl, rfl, .kept rfl⟩
  · rcases execDecode_cases s with ⟨-, e⟩ | ⟨hr, -, e⟩ | ⟨hr, -, e⟩ <;> cases e.symm.trans h
    · exact ⟨rfl, rfl, .notReady rfl⟩
    · exact ⟨rfl, rfl, .wrongLength hr rfl⟩
    · exact ⟨rfl, rfl, .succeeded hr _ rfl⟩
  · rcases execEncode_cases s with ⟨-, e⟩ | ⟨r, hr, hj, e⟩ | ⟨w, hr, -, -, -, e⟩ <;> cases e.symm.trans h
    · exact ⟨rfl, rfl, .notReady rfl⟩
    · exact ⟨rfl, rfl, .rejected hr r hj rfl⟩
    · exact ⟨rfl, rfl, .succeeded hr _ rfl⟩
  · cases h
    exact ⟨rfl, rfl, .badCommand rfl⟩

/-! ### The lock and the descriptor -/

/-- A register write never clears the lock, and writes the descriptor only while unlocked (R30, R47). -/
theorem writeReg_lock_d (r : Reg) (v : Word) (s : State) (hl : s.lock = true) :
    (writeReg r v s).lock = true ∧ (writeReg r v s).d = s.d := by
  rcases writeReg_cases r v s with e | e | ⟨x, e⟩ | ⟨x, e⟩ | ⟨x, e⟩ | ⟨x, e⟩ | ⟨hu, -⟩
  case inr.inr.inr.inr.inr.inr => rw [hl] at hu; cases hu
  all_goals rw [e]; simp [hl]

theorem writeReg_status (r : Reg) (v : Word) (s : State) : (writeReg r v s).status = s.status := by
  rcases writeReg_cases r v s with e | e | ⟨x, e⟩ | ⟨x, e⟩ | ⟨x, e⟩ | ⟨x, e⟩ | ⟨-, x, e⟩ <;> rw [e]

/-- Settles O56: case by case over what a step can do. -/
theorem lockedDescriptorIsImmutable : Obligations.LockedDescriptorIsImmutable := by
  intro s t hl hne h
  rcases step_cases h with ⟨-, rfl⟩ | ⟨a, v, rfl, -⟩ | rfl | ⟨r, v, -, rfl⟩ | ⟨w, rest, -, hx⟩ | ⟨rest, hh, -⟩
  · exact ⟨hl, rfl⟩
  · exact ⟨hl, rfl⟩
  · exact ⟨hl, rfl⟩
  · exact writeReg_lock_d r v (dropEvent s) hl
  · obtain ⟨hlock, hd, -⟩ := exec_decodeWord_outcome hx
    exact ⟨hlock.trans hl, hd⟩
  · rw [hh] at hne
    exact absurd rfl hne

/-! ### The soundness of `STATUS` -/

/-- A change that keeps `STATUS`, and lock and descriptor once locked, keeps it sound: a result that speaks of the
descriptor is there only under the lock. -/
theorem StatusSound.of_frame {s t : State} (hs : StatusSound s) (hst : t.status = s.status)
    (hl : s.lock = true → t.lock = true ∧ t.d = s.d) : StatusSound t := by
  obtain ⟨h1, h2, h3⟩ := hs
  refine ⟨hst ▸ h1, hst ▸ h2, ?_⟩
  rw [hst]
  cases hlock : s.lock with
  | true =>
    obtain ⟨ht, hd⟩ := hl hlock
    rw [hlock] at h3
    rw [ht, hd]
    exact h3
  | false =>
    cases hr : s.status.result <;> simp [hr, hlock] at h3 ⊢ <;> exact h3

/-- What a rejected command reports could fail that way. -/
theorem CommandRejected.statusSound {s t : State} {r : Raise} (h : CommandRejected s r) (hl : t.lock = true)
    (hd : t.d = s.d) (hc : cfgOk t.d = true)
    (hst : t.status = { result := r.code, errField := r.field, wEnum := false, outValid := false }) :
    StatusSound t := by
  cases h
  all_goals
    simp only [StatusSound, hst, hd]
    rw [hd] at hc
    refine ⟨by simp, by simp, ?_⟩
  case fieldMissing f h =>
    obtain ⟨⟨hen, hreq, -⟩, -⟩ := h
    exact ⟨.inr ⟨f, rfl, hen, hreq⟩, hl, hc⟩
  case stateMissing h =>
    obtain ⟨hen, -⟩ := h
    exact ⟨.inl ⟨trivial, hen⟩, hl, hc⟩
  case valueRejected f _ _ h =>
    obtain ⟨⟨⟨hen, -⟩, hk, -⟩, -⟩ := h
    exact ⟨⟨f, rfl, hen, hk⟩, hl, hc⟩
  case stateAmbiguous h =>
    obtain ⟨hen, -⟩ := h
    exact ⟨trivial, hen, hl, hc⟩
  case enumUnmatched f _ _ _ _ hstrict h =>
    obtain ⟨⟨⟨hen, -⟩, hk, -⟩, -⟩ := h
    exact ⟨⟨f, rfl, hen, hk⟩, hstrict, hl, hc⟩

/-- Every outcome of a command leaves `STATUS` sound. -/
theorem CommandOutcome.statusSound {s t : State} (hs : StatusSound s) (hl : t.lock = s.lock) (hd : t.d = s.d)
    (h : CommandOutcome s t) : StatusSound t := by
  cases h with
  | kept h => exact hs.of_frame h fun h => ⟨hl.trans h, hd⟩
  | succeeded hr w h => simp [StatusSound, h, hl.trans hr.1, hd, (cfgOk_iff s.d).2 hr.2]
  | notReady h => simp [StatusSound, h]
  | badCommand h => simp [StatusSound, h]
  | wrongLength hr h => simp [StatusSound, h, hl.trans hr.1, hd, (cfgOk_iff s.d).2 hr.2]
  | rejected hr r hj h => exact hj.statusSound (hl.trans hr.1) hd (hd ▸ (cfgOk_iff s.d).2 hr.2) h

/-- Settles O58: only a command or the reset input writes `STATUS`; every other step keeps what backs it. -/
theorem statusStaysSound : Obligations.StatusStaysSound := by
  intro s t hs h
  rcases step_cases h with ⟨-, rfl⟩ | ⟨a, v, rfl, -⟩ | rfl | ⟨r, v, -, rfl⟩ | ⟨w, rest, -, hx⟩ | ⟨rest, hh, rfl⟩
  · exact hs
  · exact hs
  · exact hs
  · exact hs.of_frame (writeReg_status r v _) (writeReg_lock_d r v (dropEvent s))
  · obtain ⟨hl, hd, ho⟩ := exec_decodeWord_outcome hx
    exact CommandOutcome.statusSound (s := dropEvent s) hs hl hd ho
  · exact resetStatusIsSound.of_frame rfl nofun

end Sys2Proof.Machine
end

section
/-!
PROOFS. What the commands depend on (spec/10_state.md R55): DECODE on the frame, ENCODE on the command.
-/

namespace Sys2Proof.Machine

/-! ### DECODE -/

theorem precheck_congr {s s' : State} (hd : s'.d = s.d) (hl : s'.lock = s.lock) : precheck s' = precheck s := by
  rw [precheck, precheck, hd, hl]

/-- Under a valid descriptor the sampler reads slots of the frame only (spec/40_slot_sampler.md R132). -/
theorem sampleBits_congr {d : Descriptor} (hv : DescriptorValid d) {raw raw' : RawBuf}
    (h : ∀ i : SlotIx, i.val < d.rawlen.toNat → raw'[i] = raw[i]) : sampleBits d raw' = sampleBits d raw := by
  obtain ⟨-, hb, -⟩ := hv
  apply BitVec.eq_of_getLsbD_eq
  intro i hi
  rw [sampleBits_getLsbD d raw' ⟨i, hi⟩, sampleBits_getLsbD d raw ⟨i, hi⟩]
  by_cases hlt : i < d.bitlen.toNat
  · have h0 : raw'[2 * i] = raw[2 * i] := h ⟨2 * i, by omega⟩ (by simp only; omega)
    have h1 : raw'[2 * i + 1] = raw[2 * i + 1] := h ⟨2 * i + 1, by omega⟩ (by simp only; omega)
    rw [rawPair, h0, h1, rawPair]
  · simp only [hlt, decide_false, Bool.false_and]

theorem decodeResult_congr {s s' : State} (hd : s'.d = s.d) (hl : s'.lock = s.lock) (hx : s'.rxlen = s.rxlen)
    (h : ∀ i : SlotIx, i.val < s.d.rawlen.toNat → s'.raw[i] = s.raw[i]) : decodeResult s' = decodeResult s := by
  rw [decodeResult, decodeResult, precheck_congr hd hl]
  by_cases hr : Ready s
  · rw [extract, extract, hd, hx, sampleBits_congr hr.2 h]
  · rw [precheck_error hr]; rfl

/-- Settles O40: what DECODE computes before it writes is the same from both states. -/
theorem decodeDependsOnFrameAlone : Obligations.DecodeDependsOnFrameAlone := by
  intro s s' hd hl hx h
  have e : ∀ u, exec .decode u = execDecode u := fun _ => rfl
  simp only [e, execDecode, decodeResult_congr hd hl hx h]
  cases decodeResult s with
  | ok r => exact ⟨_, _, rfl, rfl, rfl, fun _ => ⟨rfl, rfl, rfl⟩⟩
  | error r => exact ⟨_, _, rfl, rfl, rfl, nofun⟩

/-! ### ENCODE -/

section
variable {d : Descriptor} {c : CmdFlags} {fval fval' : Vector Val 4}
  (h : ∀ f, supplied d c f = true → fval'[f] = fval[f])
include h

theorem outOfRange_congr : outOfRange d c fval' = outOfRange d c fval := by
  funext f
  cases hs : supplied d c f
  · simp only [outOfRange, hs, Bool.false_and]
  · rw [outOfRange, outOfRange, h f hs]

theorem unmatchedEnum_congr : unmatchedEnum d c fval' = unmatchedEnum d c fval := by
  funext f
  cases hs : supplied d c f
  · simp only [unmatchedEnum, hs, Bool.false_and]
  · rw [unmatchedEnum, unmatchedEnum, h f hs]

theorem keptEntry_congr : keptEntry d c fval' = keptEntry d c fval := by
  funext f
  cases hs : supplied d c f
  · simp only [keptEntry, hs, Bool.false_and, Bool.false_eq_true, if_false]
  · rw [keptEntry, keptEntry, h f hs]

/-- The validator reads the values of supplied fields only (spec/43_validator.md R200). -/
theorem validate_congr : validate d c fval' = validate d c fval := by
  rw [validate, validate, validateEnums, validateEnums, enumMatches, enumMatches, outOfRange_congr h,
    unmatchedEnum_congr h, keptEntry_congr h]

/-- The builder renders supplied fields only (spec/42_frame_builder.md R181). -/
theorem buildFields_congr (m : Matches) (raw : RawBuf) : buildFields d c fval' m raw = buildFields d c fval m raw := by
  have hf : buildField d c fval' m = buildField d c fval m := by
    funext r f
    cases hs : supplied d c f
    · simp only [buildField, hs, Bool.false_and, Bool.false_eq_true, if_false]
    · simp only [buildField, render, h f hs]
  rw [buildFields, buildFields, hf]

end

section
variable {d : Descriptor} {raw raw' : RawBuf} {j : Nat} {hj : j < 64} (h : raw'[j] = raw[j])
include h

theorem buildFields_slot_congr (c : CmdFlags) (fval : Vector Val 4) (m : Matches) :
    (buildFields d c fval m raw')[j] = (buildFields d c fval m raw)[j] := by
  obtain ⟨hy, hn⟩ := getElem_buildFields d c fval m raw hj
  obtain ⟨hy', hn'⟩ := getElem_buildFields d c fval m raw' hj
  by_cases hh : ∃ f, supplied d c f = true ∧ m.unmatched[f] = false ∧ j / 2 ∈ render d fval f m.entry[f]
  · rw [hy hh, hy' hh]
  · rw [hn hh, hn' hh, h]

theorem buildState_slot_congr (c : CmdFlags) : (buildState d c raw')[j] = (buildState d c raw)[j] := by
  simp only [buildState]
  split
  · split <;> simp only [getElem_setPair _ _ _ hj, h]
  · exact h

theorem buildFooter_slot_congr : (buildFooter d raw')[j] = (buildFooter d raw)[j] := by
  simp only [buildFooter]
  split
  · simp only [getElem_setSlot _ _ _ hj, h]
  · exact h

end

/-- The frame does not depend on the old buffer, nor on the values of fields that are not supplied (R187, R188). -/
theorem build_congr {d : Descriptor} (hv : DescriptorValid d) {c : CmdFlags} {fval fval' : Vector Val 4}
    (h : ∀ f, supplied d c f = true → fval'[f] = fval[f]) (m : Matches) (raw raw' : RawBuf) {j : Nat} (hj : j < 64)
    (hlt : j < d.rawlen.toNat) : (build d c fval' m raw')[j] = (build d c fval m raw)[j] := by
  obtain ⟨⟨h2, -, -⟩, -⟩ := hv
  have hframed : (buildHeader d (buildBaseline d raw'))[j] = (buildHeader d (buildBaseline d raw))[j] := by
    have : j / 2 < d.rawlen.toNat / 2 := by omega
    simp only [getElem_buildHeader _ _ hj, getElem_buildBaseline _ _ hj, if_pos this]
  rw [build, build]
  apply buildFooter_slot_congr
  split
  · exact hframed
  · rw [buildFields_congr h]
    exact buildState_slot_congr (buildFields_slot_congr hframed c fval m) c

/-- Settles O41: the validator's verdict is the same from both states, and so is the frame built on it. -/
theorem encodeDependsOnCommandAlone : Obligations.EncodeDependsOnCommandAlone := by
  intro s s' hd hl hc hf
  have hsup : ∀ f, supplied s.d s.cmdf f = true → s'.fval[f] = s.fval[f] := fun f hs => hf f ((supplied_iff s f).1 hs)
  have hres : encodeResult s' = encodeResult s := by
    rw [encodeResult, encodeResult, precheck_congr hd hl, hd, hc, validate_congr hsup]
  have e : ∀ u, exec .encode u = execEncode u := fun _ => rfl
  rw [e, e, execEncode, execEncode, hres]
  by_cases hr : Ready s
  · cases encodeResult s with
    | ok v =>
      refine ⟨_, _, rfl, rfl, rfl, fun _ => ⟨congrArg Descriptor.rawlen hd, fun i hi => ?_⟩⟩
      rw [commitEncode_raw, commitEncode_raw, hd, hc]
      exact build_congr hr.2 hsup v.found s.raw s'.raw i.isLt hi
    | error r => exact ⟨_, _, rfl, rfl, rfl, nofun⟩
  · rw [encodeResult, precheck_error hr]
    exact ⟨_, _, rfl, rfl, rfl, nofun⟩

end Sys2Proof.Machine
end

section
/-!
PROOFS. The round trip (spec/10_state.md R49, spec/44_commands.md R227): what a rendered run reads back as, which pair
stands at each place of a frame, and the bits DECODE samples there.
-/

namespace Sys2Proof.Machine

/-! ### Rendered runs read back -/

/-- A bit vector that holds exactly the rendered run inside the field reads back as the value (R163). -/
theorem interpretNum_of_rendered {d : Descriptor} {x : FieldEntry} {v : Val} {b : BitsVec}
    (h : x.start.toNat ≤ x.stop.toNat) (h' : x.stop.toNat < 32) (hv : v.toNat < 2 ^ x.bits)
    (hb : ∀ i, x.Covers i → (b.getLsbD i = true ↔ i ∈ renderNum d x v)) : interpretNum d x b = v := by
  apply BitVec.eq_of_getLsbD_eq
  intro k _
  cases ho : d.mode.order with
  | natural =>
    simp only [interpretNum, ho, interpretNumNatural_getLsbD b k h h']
    by_cases hk : k < x.bits
    · have hle : k ≤ x.stop.toNat := by simp only [FieldEntry.bits] at hk; omega
      have hc : x.Covers (x.stop.toNat - k) := by simp only [FieldEntry.bits, FieldEntry.Covers] at hk ⊢; omega
      rw [decide_eq_true hk, Bool.true_and, Bool.eq_iff_iff, hb _ hc, mem_renderNum_natural _ ho]
      constructor
      · rintro ⟨k', hk', e⟩
        obtain rfl : k' = k := by omega
        exact hk'
      · exact fun hk' => ⟨k, hk', by omega⟩
    · rw [decide_eq_false hk, getLsbD_eq_false_of_lt hv (by omega)]; rfl
  | reversed =>
    simp only [interpretNum, ho, interpretNumReversed_getLsbD b k h h']
    by_cases hk : k < x.bits
    · have hc : x.Covers (x.start.toNat + k) := by simp only [FieldEntry.bits, FieldEntry.Covers] at hk ⊢; omega
      rw [decide_eq_true hk, Bool.true_and, Bool.eq_iff_iff, hb _ hc, mem_renderNum_reversed _ _ _ ho]
      constructor
      · rintro ⟨k', hk', e⟩
        obtain rfl : k' = k := by omega
        exact hk'
      · exact fun hk' => ⟨k, hk', rfl⟩
    · rw [decide_eq_false hk, getLsbD_eq_false_of_lt hv (by omega)]; rfl

/-- A bit vector that holds exactly the rendered pattern of an entry inside the field hits that entry, when the patterns
of the field's entries differ (R163). -/
theorem interpretEnum_of_rendered {d : Descriptor} {f : FieldIx} {e : EntryIx} {b : BitsVec}
    (h : d.f[f].start.toNat ≤ d.f[f].stop.toNat) (h' : d.f[f].stop.toNat < 32) (hv : d.e[e].valid = true)
    (hf : d.e[e].field = f)
    (hne : ∀ g, g ≠ e → d.e[g].valid = true → d.e[g].field = f →
      ¬ SamePattern d.f[f].bits d.e[e].pattern d.e[g].pattern)
    (hb : ∀ i, d.f[f].Covers i → (b.getLsbD i = true ↔ i ∈ renderEnum d d.f[f] e)) :
    interpretEnum d f b = some d.e[e].value := by
  have hbits : d.f[f].bits ≤ 32 := by simp only [FieldEntry.bits]; omega
  have hstands : ∀ j < d.f[f].bits, d.e[e].pattern.getLsbD j = b.getLsbD (d.f[f].start.toNat + j) := by
    intro j hj
    have hc : d.f[f].Covers (d.f[f].start.toNat + j) := by
      simp only [FieldEntry.bits, FieldEntry.Covers] at hj ⊢; omega
    rw [Bool.eq_iff_iff, hb _ hc, mem_renderEnum e _ h hbits]
    constructor
    · exact fun hp => ⟨j, hj, hp, rfl⟩
    · rintro ⟨j', -, hp, e'⟩
      obtain rfl : j' = j := by omega
      exact hp
  have hhit : entryByPattern d f b = some e := by
    refine (entryByPattern_eq_some b h h' e).2 ⟨⟨hv, hf, hstands⟩, ?_⟩
    rintro g hg ⟨hgv, hgf, hgs⟩
    exact hne g (Fin.ne_of_lt hg) hgv hgf fun j hj => (hstands j hj).trans (hgs j hj).symm
  rw [interpretEnum, hhit, Option.map_some]

/-! ### The pairs of a frame -/

theorem rawPair_eq {raw : RawBuf} {i : Fin 32} {q : Pair} (h : ∀ j (hj : j < 64), j / 2 = i.val → raw[j] = q.half j) :
    rawPair raw i = q := by
  have h0 : raw[2 * i.val] = q.m := by rw [h _ (by omega) (by omega), Pair.half, if_pos (by omega)]
  have h1 : raw[2 * i.val + 1] = q.s := by rw [h _ (by omega) (by omega), Pair.half, if_neg (by omega)]
  rw [rawPair, h0, h1]

section
variable {d : Descriptor} {c : CmdFlags} {fval : Vector Val 4} {m : Matches} {raw : RawBuf} {i : Fin 32}
  (hv : DescriptorValid d) (hs : suppressed d m = false) (hi : i.val < d.rawlen.toNat / 2 - 1)
include hv hs hi

/-- Before the footer, a frame that is not suppressed is what the first four steps leave (R181). -/
theorem getElem_build_of_lt {j : Nat} (hj : j < 64) (hp : j / 2 = i.val) : (build d c fval m raw)[j] =
    (buildState d c (buildFields d c fval m (buildHeader d (buildBaseline d raw))))[j] := by
  obtain ⟨⟨h2, h4, -⟩, -⟩ := hv
  simp only [build, hs, Bool.false_eq_true, if_false]
  rw [getElem_buildFooter _ hj h2 h4, if_neg (by omega)]

/-- A state pair holds the selected state's pattern (R184). -/
theorem rawPair_build_state (hen : d.stateSeg.en = true) {k : Fin 2} (hk : k.val < d.stateSeg.pairs)
    (hp : i.val = d.stateSeg.pos.toNat + k.val) : rawPair (build d c fval m raw) i = (selectedState d c)[k] := by
  refine rawPair_eq fun j hj hij => ?_
  rw [getElem_build_of_lt hv hs hi hj hij]
  exact (getElem_buildState d c _ hj).1 hen k hk (hij.trans hp)

/-- Any other pair behind the header is high where a visited field renders it, else low (R182, R183). -/
theorem rawPair_build_field (h0 : i.val ≠ 0) (hst : ¬ StatePair d i.val) :
    ((∃ f, supplied d c f = true ∧ m.unmatched[f] = false ∧ i.val ∈ render d fval f m.entry[f]) →
      rawPair (build d c fval m raw) i = d.high) ∧
    ((¬ ∃ f, supplied d c f = true ∧ m.unmatched[f] = false ∧ i.val ∈ render d fval f m.entry[f]) →
      rawPair (build d c fval m raw) i = d.low) := by
  have hslot : ∀ j (hj : j < 64), j / 2 = i.val → (build d c fval m raw)[j] =
      (buildFields d c fval m (buildHeader d (buildBaseline d raw)))[j] := by
    intro j hj hij
    rw [getElem_build_of_lt hv hs hi hj hij, (getElem_buildState d c _ hj).2 (hij ▸ hst)]
  constructor
  · refine fun hr => rawPair_eq fun j hj hij => ?_
    rw [hslot j hj hij]
    exact (getElem_buildFields d c fval m _ hj).1 (by rwa [hij])
  · refine fun hr => rawPair_eq fun j hj hij => ?_
    rw [hslot j hj hij, (getElem_buildFields d c fval m _ hj).2 (by rwa [hij]), getElem_buildHeader _ _ hj,
      if_neg (by omega), getElem_buildBaseline _ _ hj, if_pos (by omega)]

end

/-! ### The command -/

theorem CommandAccepted.not_rejected {s : State} (h : CommandAccepted s) (r : Raise) : ¬ CommandRejected s r := by
  obtain ⟨hmiss, hstate, hrange, hamb, henum⟩ := h
  intro hr
  cases hr with
  | fieldMissing f h => exact hmiss f h.1
  | stateMissing _ h => exact hstate h
  | valueRejected f _ _ h => exact hrange f h.1
  | stateAmbiguous _ _ h => exact hamb h
  | enumUnmatched f _ _ _ _ hs h => exact henum hs f h.1

/-- An accepted command is encoded (spec/44_commands.md R222). -/
theorem execEncode_of_accepted {s : State} (hr : Ready s) (ha : CommandAccepted s) :
    ∃ w, execEncode s = .next (commitEncode { found := enumMatches s.d s.cmdf s.fval, wEnum := w } s) := by
  rcases execEncode_cases s with ⟨hn, -⟩ | ⟨r, -, hj, -⟩ | ⟨w, -, -, -, -, e⟩
  · exact absurd hr hn
  · exact absurd hj (ha.not_rejected r)
  · exact ⟨w, e⟩

/-- A frame of the declared length is decoded (R221). -/
theorem execDecode_of_length {s : State} (hr : Ready s) (hx : s.rxlen = s.d.rawlen) :
    execDecode s = .next (commitDecode (sampleBits s.d s.raw) (interpret s.d (sampleBits s.d s.raw)) s) := by
  rcases execDecode_cases s with ⟨hn, -⟩ | ⟨-, hn, -⟩ | ⟨-, -, e⟩
  · exact absurd hr hn
  · exact absurd hx hn
  · exact e

theorem RoundTripCommand.not_unmatched {s : State} (hc : RoundTripCommand s) (f : FieldIx) : ¬ EnumUnmatched s f := by
  rintro ⟨⟨hen, -⟩, hk, hno⟩
  obtain ⟨-, -, henum⟩ := hc.1 f hen
  obtain ⟨e, he⟩ := henum hk
  exact hno e he

theorem RoundTripCommand.accepted {s : State} (hc : RoundTripCommand s) : CommandAccepted s := by
  obtain ⟨hf, hst⟩ := id hc
  refine ⟨?_, ?_, ?_, ?_, fun _ => hc.not_unmatched⟩
  · rintro f ⟨hen, -, hp⟩
    rw [(hf f hen).1] at hp
    cases hp
  · rintro ⟨hen, ha, hb⟩
    exact hst hen (ha.trans hb.symm)
  · rintro f ⟨⟨hen, -⟩, hk, hr⟩
    obtain ⟨-, hnum, -⟩ := hf f hen
    obtain ⟨hmin, hmax, hfit⟩ := hnum hk
    omega
  · rintro ⟨hen, ha, hb⟩
    exact hst hen (ha.trans hb.symm)

/-- The bits DECODE samples from the frame ENCODE builds. -/
def frameBits (s : State) : BitsVec :=
  sampleBits s.d (build s.d s.cmdf s.fval (enumMatches s.d s.cmdf s.fval) s.raw)

/-- What the builder renders for field `f` of an accepted command (R159). -/
def renderedRun (s : State) (f : FieldIx) : List Nat := render s.d s.fval f (enumMatches s.d s.cmdf s.fval).entry[f]

theorem renderedRun_numeric {s : State} {f : FieldIx} (hk : s.d.f[f].kind = .numeric) :
    renderedRun s f = renderNum s.d s.d.f[f] s.fval[f] := by
  simp only [renderedRun, render, hk]

/-- ENCODE of an accepted command, then DECODE: the frame's bits are interpreted (R221, R222). -/
theorem execDecode_of_execEncode {s : State} (hr : Ready s) (ha : CommandAccepted s) :
    ∃ t, execEncode s = .next t ∧ t.status.result = .ok ∧
      execDecode t = .next (commitDecode (frameBits s) (interpret s.d (frameBits s)) t) := by
  obtain ⟨w, henc⟩ := execEncode_of_accepted hr ha
  exact ⟨_, henc, rfl, execDecode_of_length (s := commitEncode _ s) hr rfl⟩

section
variable {s : State} (hc : RoundTripCommand s)
include hc

theorem RoundTripCommand.supplied {f : FieldIx} (hen : s.d.f[f].en = true) : Supplied s f :=
  ⟨hen, (hc.1 f hen).1⟩

theorem RoundTripCommand.not_suppressed : suppressed s.d (enumMatches s.d s.cmdf s.fval) = false := by
  rw [Bool.eq_false_iff, ne_eq, suppressed_iff]
  rintro ⟨-, f, hu⟩
  rw [enumMatches_unmatched, unmatchedEnum_iff] at hu
  exact hc.not_unmatched f hu

/-- An ENUM field of the command is rendered from an entry that stands for its value. -/
theorem RoundTripCommand.renderedRun_enum {f : FieldIx} (hen : s.d.f[f].en = true) (hk : s.d.f[f].kind = .enum) :
    ∃ e, EntryFor s.d f s.fval[f] e ∧ renderedRun s f = renderEnum s.d s.d.f[f] e := by
  have hkept : (enumMatches s.d s.cmdf s.fval).entry[f] = entryByValue s.d f s.fval[f] := by
    rw [enumMatches_entry, keptEntry_eq (hc.supplied hen) hk]
  cases he : entryByValue s.d f s.fval[f] with
  | none =>
    obtain ⟨-, -, henum⟩ := hc.1 f hen
    obtain ⟨e, hfor⟩ := henum hk
    exact absurd hfor ((entryByValue_isNone s.d f _).1 (by rw [he]; rfl) e)
  | some e =>
    refine ⟨e, ((entryByValue_eq_some _ _ _ _).1 he).1, ?_⟩
    simp only [renderedRun, render, hk, hkept, he]

/-- Every field of the command is rendered inside its range (R160, R161). -/
theorem RoundTripCommand.renderedRun_covers (hv : DescriptorValid s.d) {f : FieldIx} (hen : s.d.f[f].en = true)
    {i : Nat} (hi : i ∈ renderedRun s f) : s.d.f[f].Covers i := by
  obtain ⟨hle, -, -, hbits⟩ := hv.field hen
  cases hk : s.d.f[f].kind with
  | numeric =>
    rw [renderedRun_numeric hk] at hi
    obtain ⟨-, hnum, -⟩ := hc.1 f hen
    obtain ⟨-, -, hfit⟩ := hnum hk
    exact renderNum_covers hle hfit hi
  | enum =>
    obtain ⟨e, -, hrun⟩ := hc.renderedRun_enum hen hk
    rw [hrun] at hi
    exact renderEnum_covers hle hbits hi

/-! ### The sampled bits of the frame -/

variable (hl : RoundTripLayout s.d)
include hl

/-- The bits of a field's range are the run rendered for that field: no other field, no state pair, no header and no
footer stands there, and the sampler tells high from low. -/
theorem frameBits_field {f : FieldIx} (hen : s.d.f[f].en = true) {i : Nat} (hi : s.d.f[f].Covers i) :
    (frameBits s).getLsbD i = true ↔ i ∈ renderedRun s f := by
  obtain ⟨hv, ⟨hhigh, hlow⟩, hfields, hstate, hends, -⟩ := id hl
  obtain ⟨-, hbl, hranges, -⟩ := id hv
  obtain ⟨-, hstop, -⟩ := hranges f hen
  obtain ⟨-, -, h32, -⟩ := hv.field hen
  obtain ⟨hfirst, hlast⟩ := hends f hen
  have h0 : i ≠ 0 := by rintro rfl; exact hfirst hi
  have hne : i ≠ s.d.rawlen.toNat / 2 - 1 := by rintro rfl; exact hlast hi
  have hst : ¬ StatePair s.d i := by
    rintro ⟨hsen, hlo, hhi⟩
    have := hstate f hen hsen
    simp only [FieldEntry.Covers] at hi; omega
  have hrun : (∃ g, supplied s.d s.cmdf g = true ∧ (enumMatches s.d s.cmdf s.fval).unmatched[g] = false ∧
      i ∈ render s.d s.fval g (enumMatches s.d s.cmdf s.fval).entry[g]) ↔ i ∈ renderedRun s f := by
    constructor
    · rintro ⟨g, hg, -, hr⟩
      obtain ⟨hgen, -⟩ := (supplied_iff s g).1 hg
      have hgi := hc.renderedRun_covers hv hgen hr
      by_cases hgf : g = f
      · exact hgf ▸ hr
      · have := hfields g f hgf hgen hen
        simp only [FieldEntry.Covers] at hi hgi; omega
    · refine fun hr => ⟨f, (supplied_iff s f).2 (hc.supplied hen), ?_, hr⟩
      rw [enumMatches_unmatched, Bool.eq_false_iff, ne_eq, unmatchedEnum_iff]
      exact hc.not_unmatched f
  obtain ⟨hy, hn⟩ := rawPair_build_field (c := s.cmdf) (fval := s.fval) (raw := s.raw) (i := ⟨i, by omega⟩) hv
    hc.not_suppressed (by simp only [FieldEntry.Covers] at hi ⊢; omega) h0 hst
  rw [hrun] at hy hn
  have hlt : i < s.d.bitlen.toNat := by simp only [FieldEntry.Covers] at hi; omega
  rw [frameBits, sampleBits_getLsbD s.d _ ⟨i, by omega⟩, decide_eq_true hlt, Bool.true_and, sample_eq_true]
  by_cases hr : i ∈ renderedRun s f
  · rw [hy hr]
    exact iff_of_true hhigh hr
  · rw [hn hr]
    exact iff_of_false hlow hr

/-- Every enabled field reads back (R163). -/
theorem interpretField_frameBits {f : FieldIx} (hen : s.d.f[f].en = true) :
    interpretField s.d (frameBits s) f = some s.fval[f] := by
  obtain ⟨hv, -, -, -, -, -, -, hpatterns⟩ := id hl
  obtain ⟨hle, -, h32, -⟩ := hv.field hen
  have hbits := fun i (hi : s.d.f[f].Covers i) => frameBits_field hc hl hen hi
  cases hk : s.d.f[f].kind with
  | numeric =>
    obtain ⟨-, hnum, -⟩ := hc.1 f hen
    obtain ⟨-, -, hfit⟩ := hnum hk
    rw [renderedRun_numeric hk] at hbits
    rw [interpretField_numeric _ hen hk, interpretNum_of_rendered hle h32 hfit hbits]
  | enum =>
    obtain ⟨e, ⟨hev, hef, heq⟩, hrun⟩ := hc.renderedRun_enum hen hk
    rw [hrun] at hbits
    have hne : ∀ g, g ≠ e → s.d.e[g].valid = true → s.d.e[g].field = f →
        ¬ SamePattern s.d.f[f].bits s.d.e[e].pattern s.d.e[g].pattern :=
      fun g hg hgv hgf => (hpatterns f hk e g hg.symm hev hef hgv hgf).2
    rw [interpretField_enum _ hen hk, interpretEnum_of_rendered hle h32 hev hef hne hbits, heq]

/-- The selected state's pattern stands in the frame. -/
theorem statePatternStands_frameBits (hen : s.d.stateSeg.en = true) :
    StatePatternStands s.d (selectedState s.d s.cmdf) (frameBits s) := by
  obtain ⟨hv, -, -, -, -, hends, -⟩ := id hl
  obtain ⟨-, hbl, -, hpos, -⟩ := id hv
  have hpos := hpos hen
  obtain ⟨hhalf, h32⟩ := hv.state hen
  obtain ⟨-, hlast⟩ := hends hen
  intro k hk
  have hlt : s.d.stateSeg.pos.toNat + k.val < s.d.bitlen.toNat := by omega
  have hi : s.d.stateSeg.pos.toNat + k.val < s.d.rawlen.toNat / 2 - 1 := by
    simp only [StateSeg.Covers] at hlast; omega
  rw [frameBits, sampleBits_getLsbD s.d _ ⟨s.d.stateSeg.pos.toNat + k.val, by omega⟩, decide_eq_true hlt,
    Bool.true_and, sample_eq_true, rawPair_build_state hv hc.not_suppressed hi hen hk rfl]

/-- The state flags read back (R158, R184). -/
theorem interpretState_frameBits (hen : s.d.stateSeg.en = true) :
    interpretState s.d (frameBits s) = (s.cmdf.sa, s.cmdf.sb) := by
  obtain ⟨hv, -, -, -, -, -, hdiff, -⟩ := id hl
  have h32 := (hv.state hen).2
  have hsel := statePatternStands_frameBits hc hl hen
  have hne := hc.2 hen
  rw [interpretState]
  cases ha : s.cmdf.sa with
  | true =>
    have hb : s.cmdf.sb = false := by simpa [ha] using hne
    rw [selectedState, ha, if_pos rfl, ← stateMatches_iff _ _ h32] at hsel
    rw [if_pos hsel, hb]
  | false =>
    have hb : s.cmdf.sb = true := by simpa [ha] using hne
    rw [selectedState, ha, if_neg Bool.false_ne_true] at hsel
    have hnot : ¬ stateMatches s.d s.d.sa (frameBits s) = true := by
      rw [stateMatches_iff _ _ h32]
      intro hsa
      obtain ⟨k, hk, hk'⟩ := hdiff hen
      exact hk' ((hsa k hk).symm.trans (hsel k hk))
    rw [if_neg hnot, if_pos ((stateMatches_iff _ _ h32).2 hsel), hb]

end

/-- Settles O39: ENCODE then DECODE interprets `frameBits`, where every enabled field and the state read back. -/
theorem roundTripWithoutMaximumBound : Obligations.RoundTripWithoutMaximumBound := by
  intro s hlock hl hc
  obtain ⟨t, henc, hok, hdec⟩ := execDecode_of_execEncode ⟨hlock, hl.1⟩ hc.accepted
  refine ⟨t, _, henc, hdec, hok, rfl, fun f hen => ?_, fun f hen => ?_, fun hen => ?_, fun hen => ?_⟩
  · rw [commitDecode_fval, commitDecode_cmdf, interpret_val, interpret_present, interpretField_frameBits hc hl hen,
      (hc.supplied hen).2]
    exact ⟨rfl, rfl⟩
  · rw [commitDecode_fval, commitDecode_cmdf, interpret_val, interpret_present, interpretField_disabled _ hen]
    exact ⟨rfl, rfl⟩
  · simp [interpret, hen, interpretState_frameBits hc hl hen]
  · simp [interpret, hen]

end Sys2Proof.Machine
end

section
/-!
PROOFS. The host's accesses: which are refused, the reads, the writes that are ignored, and the writes to a data register
(spec/20_memory.md R62 to R68).
-/

namespace Sys2Proof.Machine

/-! ### One access as a step -/

/-- The host event taken off the list is the one the step runs. -/
theorem step_of_host {s : State} {e : HostEvent} {rest : List HostEvent} (hh : s.host = e :: rest) :
    step s = hostEvent e { s with host := rest } := by
  rw [step, hostStep, hh, dropEvent, hh]
  rfl

/-- Every command word completes: NOP and a reserved word at once, DECODE and ENCODE by their outcomes. -/
theorem exists_exec_decodeWord_next (w : Word) (s : State) : ∃ t, exec (decodeWord w) s = .next t := by
  rcases exec_decodeWord_cases w s with e | e | e | e <;> rw [e]
  · exact ⟨_, rfl⟩
  · rcases execDecode_cases s with ⟨-, e⟩ | ⟨-, -, e⟩ | ⟨-, -, e⟩ <;> exact ⟨_, e⟩
  · rcases execEncode_cases s with ⟨-, e⟩ | ⟨r, -, -, e⟩ | ⟨w, -, -, -, -, e⟩ <;> exact ⟨_, e⟩
  · exact ⟨_, rfl⟩

/-- A write inside the specification answers a next state, whatever stands at its offset. -/
theorem exists_writeOffset_next (a : Nat) (v : Word) (s : State) : ∃ t, writeOffset a v s = .next t := by
  cases hr : regOfOffset a with
  | none => exact ⟨s, by rw [writeOffset, hr]⟩
  | some r =>
    by_cases hc : r = .cmd
    · subst hc
      rw [writeOffset, hr]
      exact exists_exec_decodeWord_next v s
    · exact ⟨_, writeOffset_reg hr hc v s⟩

theorem hostRead_refused_iff (w : AccessWidth) (a : Nat) (s : State) :
    (∃ r, hostRead w a s = .refused r) ↔ ¬ WholeWord w a := by
  rw [hostRead, ← accessRefusal_eq_none]
  cases accessRefusal w a <;> simp

theorem hostWrite_refused_iff (w : AccessWidth) (a : Nat) (v : Word) (s : State) :
    (∃ r, hostWrite w a v s = .refused r) ↔ ¬ WholeWord w a := by
  obtain ⟨t, ht⟩ := exists_writeOffset_next a v s
  rw [hostWrite, ← accessRefusal_eq_none]
  cases accessRefusal w a <;> simp [ht]

/-- Settles O43: only the access check refuses, since the register space and every command answer a next state. -/
theorem onlyOutsideAccessesAreRefused : Obligations.OnlyOutsideAccessesAreRefused := by
  intro s w a v rest hh
  rcases hh with hh | hh <;> rw [step_of_host hh]
  · exact hostRead_refused_iff w a _
  · exact hostWrite_refused_iff w a v _

/-- Settles O42: the read hands over the register, and the register does not depend on the host's list. -/
theorem readChangesNothing : Obligations.ReadChangesNothing := by
  intro s a rest hh h
  rw [step_of_host hh]
  exact hostRead_eq h _

/-! ### The address map and its holes -/

/-- Settles O44: the map finds every register at its offset, and what it finds at an offset stands there. -/
theorem addressMapIsExact : Obligations.AddressMapIsExact :=
  ⟨fun r => ⟨regOfOffset_offset r, wholeWord_offset r⟩, fun _ _ => offset_of_regOfOffset⟩

/-- Where the holes lie: among them the fourth word of every layout and table entry (R63). -/
theorem unmapped_bounds {a : Nat} (h : Unmapped a) :
    (0x018 ≤ a ∧ a < 0x020) ∨ (0x030 ≤ a ∧ a < 0x040) ∨ (0x080 ≤ a ∧ a < 0x140 ∧ a % 16 = 12) ∨
      (0x140 ≤ a ∧ a < 0x200) := by
  rcases h with h | h | h | ⟨f, h⟩ | ⟨e, h⟩ | h <;> omega

/-- No register stands in a hole of the map. -/
theorem not_unmapped_offset (r : Reg) : ¬ Unmapped r.offset := by
  intro h
  have hb := unmapped_bounds h
  cases r <;> simp only [Reg.offset] at hb <;> omega

theorem regOfOffset_eq_none_iff {a : Nat} (h : WholeWord .word a) : regOfOffset a = none ↔ Unmapped a := by
  constructor
  · intro hn
    by_contra hu
    obtain ⟨r, hr⟩ := exists_reg_of_not_unmapped h hu
    rw [hn] at hr
    cases hr
  · intro hu
    rw [Option.eq_none_iff_forall_ne_some]
    intro r hr
    exact not_unmapped_offset r ((offset_of_regOfOffset hr).symm ▸ hu)

/-- Settles O45: an offset of the list holds no register, so it reads 0 and takes no write. -/
theorem unmappedOffsetsAreInert : Obligations.UnmappedOffsetsAreInert := by
  intro s a v rest h
  refine ⟨regOfOffset_eq_none_iff h, fun hu => ?_⟩
  have hn : regOfOffset a = none := (regOfOffset_eq_none_iff h).2 hu
  exact ⟨by rw [regRead, hn], fun hh => step_write_unmapped hh h hn⟩

/-! ### Writes that are ignored -/

/-- The offsets that take no write in `s`: `STATUS`, `BITS` and `TXDUR[i]`, and while locked the descriptor (R64). -/
abbrev Protected (s : State) (a : Nat) : Prop :=
  a = 0x004 ∨ a = 0x014 ∨ (0x300 ≤ a ∧ a < 0x400) ∨ (s.lock = true ∧ 0x040 ≤ a ∧ a < 0x140)

/-- A locked descriptor register takes no write (R30). -/
theorem writeReg_locked {r : Reg} (h : r.InDescriptor) {s : State} (hl : s.lock = true) (v : Word) :
    writeReg r v s = s := by
  obtain ⟨h, h'⟩ := h
  cases r
  case cmd | status | ctrl | rxlen | cmdf | bits | fval | raw | txdur => simp only [Reg.offset] at h h'; omega
  all_goals rw [writeReg, if_pos hl]

/-- A protected register takes no write: outside the descriptor it is one of the read-only ones. -/
theorem writeReg_protected {r : Reg} {s : State} (h : Protected s r.offset) (v : Word) : writeReg r v s = s := by
  by_cases hd : r.InDescriptor
  · rcases h with h | h | h | ⟨hl, -⟩
    case inr.inr.inr => exact writeReg_locked hd hl v
    all_goals omega
  · replace h : r.offset = 0x004 ∨ r.offset = 0x014 ∨ 0x300 ≤ r.offset := by omega
    cases r
    case status | bits | txdur => rfl
    all_goals simp only [Reg.offset] at h hd; omega

/-- Settles O46: the offset holds a protected register or none, and neither takes the write. -/
theorem protectedRegistersIgnoreWrites : Obligations.ProtectedRegistersIgnoreWrites := by
  intro s a v rest hh h4 h
  have hw : WholeWord .word a := ⟨rfl, h4, by omega⟩
  cases hr : regOfOffset a with
  | none => exact step_write_unmapped hh hw hr
  | some r =>
    obtain rfl := offset_of_regOfOffset hr
    have hc : r ≠ .cmd := by rintro rfl; simp [Reg.offset] at h
    rw [step_write hh hw hr hc, writeReg_protected (s := { s with host := rest }) h]

/-! ### Writes to a data register -/

/-- A host write at a register's own offset is the write of that register. -/
theorem step_write_offset {s : State} {v : Word} {rest : List HostEvent} (r : Reg) (hc : r ≠ .cmd)
    (hh : s.host = .regWrite .word r.offset v :: rest) : step s = .next (writeReg r v { s with host := rest }) :=
  step_write hh (wholeWord_offset r) (regOfOffset_offset r) hc

/-- A write to one place of a register array changes that place only. -/
theorem getElem_set_self_and_ne {α : Type} {n : Nat} (x : Vector α n) (i : Fin n) (y : α) :
    (x.set i y)[i] = y ∧ ∀ j : Fin n, j ≠ i → (x.set i y)[j] = x[j] :=
  ⟨Vector.getElem_set_self _, fun _ hj => Vector.getElem_set_ne _ _ fun h => hj (Fin.ext h.symm)⟩

/-- Settles O47: each offset is its register's, whose write replaces that register by the bits it has. -/
theorem dataRegisterWriteIsLocal : Obligations.DataRegisterWriteIsLocal := by
  intro s v rest
  refine ⟨step_write_offset .rxlen nofun, fun hh => ?_, fun f hh => ?_, fun i hh => ?_⟩
  · refine ⟨cmdfOfWord v, step_write_offset .cmdf nofun hh, ?_, rfl, rfl⟩
    exact (BitVec.setWidth_eq_extractLsb' (by decide)).symm
  · exact ⟨_, step_write_offset (.fval f) nofun hh, getElem_set_self_and_ne _ _ _⟩
  · exact ⟨_, step_write_offset (.raw i) nofun hh, getElem_set_self_and_ne _ _ _⟩

end Sys2Proof.Machine
end

section
/-!
PROOFS. The command word: the decoder and the encoder are inverse (spec/30_encoding.md R91 to R93), and what a reserved
word does.
-/

namespace Sys2Proof

/-! ### The two fields of a command word -/

/-- `RSV` and `OP` are all of a command word (R91). -/
theorem rsvField_append_opField (w : Word) : rsvField w ++ opField w = w :=
  (BitVec.extractLsb'_append_extractLsb'_eq_extractLsb' rfl).trans BitVec.extractLsb'_eq_self

theorem eq_zero_append_of_rsvField {w : Word} (h : rsvField w = 0) : w = (0 : BitVec 30) ++ opField w := by
  rw [← h, rsvField_append_opField]

theorem isReservedWord_iff (w : Word) : isReservedWord w = true ↔ opField w = 3 ∨ rsvField w ≠ 0 := by
  simp [isReservedWord]

theorem opField_eq_three {x : BitVec 2} (h0 : x ≠ 0) (h1 : x ≠ 1) (h2 : x ≠ 2) : x = 3 := by bv_omega

/-! ### What the decoder answers -/

/-- All the decoder can answer: the opcode map of R92, and RESERVED with the word for every reserved word (R93). -/
theorem decodeWord_cases (w : Word) :
    (w = 0x00000000#32 ∧ decodeWord w = .nop) ∨ (w = 0x00000001#32 ∧ decodeWord w = .decode) ∨
      (w = 0x00000002#32 ∧ decodeWord w = .encode) ∨ (isReservedWord w = true ∧ decodeWord w = .reserved w) := by
  rw [decodeWord, isReservedWord_iff]
  split_ifs with hr h0 h1 h2
  · exact .inl ⟨by rw [eq_zero_append_of_rsvField hr, h0]; rfl, rfl⟩
  · exact .inr (.inl ⟨by rw [eq_zero_append_of_rsvField hr, h1]; rfl, rfl⟩)
  · exact .inr (.inr (.inl ⟨by rw [eq_zero_append_of_rsvField hr, h2]; rfl, rfl⟩))
  · exact .inr (.inr (.inr ⟨.inl (opField_eq_three h0 h1 h2), rfl⟩))
  · exact .inr (.inr (.inr ⟨.inr hr, rfl⟩))

theorem isCommand_decodeWord (w : Word) : (decodeWord w).isCommand = true := by
  rcases decodeWord_cases w with ⟨-, e⟩ | ⟨-, e⟩ | ⟨-, e⟩ | ⟨-, e⟩ <;> rw [e] <;> rfl

theorem wellFormed_decodeWord (w : Word) : (decodeWord w).wellFormed = true := by
  rcases decodeWord_cases w with ⟨-, e⟩ | ⟨-, e⟩ | ⟨-, e⟩ | ⟨h, e⟩ <;> rw [e]
  case inr.inr.inr => exact h
  all_goals rfl

theorem encode_decodeWord (w : Word) : encode (decodeWord w) = [w] := by
  rcases decodeWord_cases w with ⟨rfl, e⟩ | ⟨rfl, e⟩ | ⟨rfl, e⟩ | ⟨-, e⟩ <;> rw [e] <;> rfl

theorem decodeWord_of_isReservedWord {w : Word} (h : isReservedWord w = true) : decodeWord w = .reserved w := by
  rcases decodeWord_cases w with ⟨rfl, -⟩ | ⟨rfl, -⟩ | ⟨rfl, -⟩ | ⟨-, e⟩
  case inr.inr.inr => exact e
  all_goals exact absurd h (by decide)

/-! ### The decoder and the encoder are inverse -/

/-- Settles O1: the opcodes of R92 are read back as they stand, a RESERVED because its word is a reserved one; a stage has
no command word (R94). -/
theorem decodeOfEncodeIsInstruction : Obligations.DecodeOfEncodeIsInstruction := by
  intro i rest hw hc
  cases i
  case nop | decode | encode => rfl
  case reserved w =>
    calc decode (encode (.reserved w) ++ rest)
      _ = .ok (decodeWord w, rest) := rfl
      _ = .ok (.reserved w, rest) := by rw [decodeWord_of_isReservedWord hw]
  all_goals cases hc

/-- Settles O2: the decoder's answers are command rows, and the encoder gives the word back. -/
theorem everyWordIsOneCommand : Obligations.EveryWordIsOneCommand := fun w =>
  ⟨isCommand_decodeWord w, wellFormed_decodeWord w, encode_decodeWord w⟩

/-- A word stands for a command exactly when it is the command's encoding. -/
theorem decodeWord_eq_iff {w : Word} {i : Instr} (hw : i.wellFormed = true) (hc : i.isCommand = true) :
    decodeWord w = i ↔ encode i = [w] := by
  constructor
  · rintro rfl
    exact encode_decodeWord w
  · intro he
    have hd : decode (encode i ++ []) = .ok (i, []) := decodeOfEncodeIsInstruction i [] hw hc
    rw [he] at hd
    cases hd
    rfl

/-- Settles O3: the three opcodes are their encodings; RESERVED with itself is well formed, so its word is reserved. -/
theorem opcodeMapIsExact : Obligations.OpcodeMapIsExact := by
  intro w
  have hmap {i : Instr} {v : Word} (hw : i.wellFormed = true) (hc : i.isCommand = true) (hv : encode i = [v]) :
      decodeWord w = i ↔ w = v := by
    rw [decodeWord_eq_iff hw hc, hv, List.singleton_inj, eq_comm]
  refine ⟨hmap rfl rfl rfl, hmap rfl rfl rfl, hmap rfl rfl rfl, Iff.trans ⟨fun e => ?_, ?_⟩ (isReservedWord_iff w)⟩
  · have hw : (decodeWord w).wellFormed = true := wellFormed_decodeWord w
    rwa [e] at hw
  · exact decodeWord_of_isReservedWord

/-- Settles O4: the first three words are encodings, the others reserved words. -/
theorem sampleWordsDecode : Obligations.SampleWordsDecode :=
  ⟨(decodeWord_eq_iff rfl rfl).mpr rfl, (decodeWord_eq_iff rfl rfl).mpr rfl, (decodeWord_eq_iff rfl rfl).mpr rfl,
    decodeWord_of_isReservedWord (by decide), decodeWord_of_isReservedWord (by decide),
    decodeWord_of_isReservedWord (by decide)⟩

/-! ### A reserved word run -/

namespace Machine

/-- RESERVED raises `BadCommand` and does nothing else (spec/44_commands.md R224). -/
theorem exec_reserved (w : Word) (s : State) :
    exec (.reserved w) s = .next (raise { code := .badCommand, field := .noField } s) := rfl

/-- Settles O7: raising writes `STATUS` only (spec/60_exceptions.md R244). -/
theorem reservedWordSetsBadCommand : Obligations.ReservedWordSetsBadCommand := by
  intro s w
  rw [exec_reserved, raise]

end Machine
end Sys2Proof
end

section
/-!
PROOFS. The slot sampler (spec/40_slot_sampler.md R130 to R132): what the stages SAMPLE and EXTRACT yield, when EXTRACT
raises, and the DECODE that stops there.
-/

namespace Sys2Proof.Machine

/-! ### SAMPLE -/

theorem exec_sample (m sp : Code) (s : State) :
    exec (.sample m sp) s = .next (yieldStage (.bit (sample s.d { m := m, s := sp })) s) := rfl

/-- Settles O16: the verdict is equality with the sentinel (R131), and `HALF` says which code of the pair is compared. -/
theorem sampleComparesSelectedSlot : Obligations.SampleComparesSelectedSlot := by
  intro s m sp
  rw [exec_sample, sample_eq_decide, yieldStage]
  constructor
  · intro hfirst
    simp only [Sampled, hfirst]
  · intro hsecond
    simp only [Sampled, hsecond]

/-! ### EXTRACT -/

/-- A frame of the declared length yields the vector of its samples (R130). -/
theorem exec_extract_of_length {s : State} (h : s.rxlen = s.d.rawlen) :
    exec .extract s = .next (yieldStage (.bits (sampleBits s.d s.raw)) s) := by
  change execExtract s = _
  rw [execExtract, extract_ok h]

/-- A frame of any other length raises before a slot is read (R130). -/
theorem exec_extract_of_wrong_length {s : State} (h : s.rxlen ≠ s.d.rawlen) :
    exec .extract s = .next (raiseStage { code := .invalidFrameLength, field := .noField } s) := by
  change execExtract s = _
  rw [execExtract, extract_error h]

/-- The set bits of the vector: the pairs below 32 and `BITLEN` whose sampled slot holds the sentinel (R130, R69). -/
theorem sampleBits_getLsbD_iff (d : Descriptor) (raw : RawBuf) (i : Nat) :
    (sampleBits d raw).getLsbD i = true ↔
      i < 32 ∧ i < d.bitlen.toNat ∧ raw[sampledSlotIx d i]? = some d.sentinel := by
  by_cases hi : i < 32
  · rw [sampleBits_getLsbD d raw ⟨i, hi⟩, Bool.and_eq_true, decide_eq_true_iff, sample_rawPair]
    exact (and_iff_right hi).symm
  · simp [BitVec.getLsbD_of_ge _ i (Nat.le_of_not_lt hi), hi]

/-- Settles O17: the vector is that of the samples, read bit by bit. -/
theorem extractSamplesEachPair : Obligations.ExtractSamplesEachPair := fun s h =>
  ⟨sampleBits s.d s.raw, exec_extract_of_length h, sampleBits_getLsbD_iff s.d s.raw⟩

/-- Settles O18: a stage that raises writes `STATUS` as R244 says and leaves every other register. -/
theorem extractRaisesOnWrongLength : Obligations.ExtractRaisesOnWrongLength := by
  intro s h
  rw [exec_extract_of_wrong_length h, raiseStage, yieldStage, raise]

/-! ### DECODE of a frame of the wrong length -/

/-- Under a valid descriptor the length is what DECODE fails on, and what it would write becomes unspecified (R228). -/
theorem execDecode_of_wrong_length {s : State} (hr : Ready s) (hx : s.rxlen ≠ s.d.rawlen) :
    execDecode s = .next (raise { code := .invalidFrameLength, field := .noField } (unspecifyCommand s)) := by
  rcases execDecode_cases s with ⟨hn, -⟩ | ⟨-, -, e⟩ | ⟨-, hl, -⟩
  · exact absurd hr hn
  · exact e
  · exact absurd hl hx

/-- Settles O11: `BITS`, `FVAL` and `CMDF` take the free values of the failed DECODE, and raising writes `STATUS` only. -/
theorem decodeRejectsWrongLength : Obligations.DecodeRejectsWrongLength := fun _ hr hx =>
  ⟨_, _, _, _, execDecode_of_wrong_length hr hx⟩

end Sys2Proof.Machine
end

section
/-!
PROOFS. The field mapper (spec/41_field_mapper.md R150 to R163): what each of its stages yields when executed alone, in
the decode direction, in the encode direction, and one after the other.
-/

namespace Sys2Proof.Machine

/-! ### The stages of the mapper: each yields its result and changes no register -/

section
variable (b : BitsVec) (f : FieldIx) (s : State)

theorem exec_interpret : exec (.interpret b) s = .next (yieldStage (.command (interpret s.d b)) s) := rfl

theorem exec_interpretNumNatural :
    exec (.interpretNumNatural b f) s = .next (yieldStage (.value (interpretNumNatural s.d.f[f] b)) s) := rfl

theorem exec_interpretNumReversed :
    exec (.interpretNumReversed b f) s = .next (yieldStage (.value (interpretNumReversed s.d.f[f] b)) s) := rfl

theorem exec_interpretEnum :
    exec (.interpretEnum b f) s = .next (yieldStage (.enumHit (interpretEnum s.d f b)) s) := rfl

theorem exec_interpretState : exec (.interpretState b) s =
    .next (yieldStage (.stateFlags (interpretState s.d b).1 (interpretState s.d b).2) s) := rfl

theorem exec_render (o : Option EntryIx) :
    exec (.render f o) s = .next (yieldStage (.indices (render s.d s.fval f o)) s) := rfl

theorem exec_renderNum (v : Val) :
    exec (.renderNum f v) s = .next (yieldStage (.indices (renderNum s.d s.d.f[f] v)) s) := rfl

theorem exec_renderEnum (e : EntryIx) :
    exec (.renderEnum f e) s = .next (yieldStage (.indices (renderEnum s.d s.d.f[f] e)) s) := rfl

end

/-- A stage yields one list of indices. -/
theorem indices_eq_of_yieldStage {s t : State} {l l' : List Nat} (ht : t.stageOut = .indices l')
    (h : (.next (yieldStage (.indices l) s) : Host.Outcome State Fault Refusal) = .next t) : l = l' := by
  have hout : StageOut.indices l = t.stageOut := congrArg State.stageOut (Host.Outcome.next.inj h)
  exact StageOut.indices.inj (hout.trans ht)

/-! ### INTERPRET_NUM -/

theorem interpretNum_natural {d : Descriptor} (x : FieldEntry) (b : BitsVec) (ho : d.mode.order = .natural) :
    interpretNum d x b = interpretNumNatural x b := by
  rw [interpretNum, ho]

theorem interpretNum_reversed {d : Descriptor} (x : FieldEntry) (b : BitsVec) (ho : d.mode.order = .reversed) :
    interpretNum d x b = interpretNumReversed x b := by
  rw [interpretNum, ho]

/-- Settles O19: the weighted sum of R151, read bit by bit. -/
theorem naturalOrderWeighsFromEnd : Obligations.NaturalOrderWeighsFromEnd := fun s b f h h' =>
  ⟨_, exec_interpretNumNatural b f s, fun k => interpretNumNatural_getLsbD b k h h'⟩

/-- Settles O20: the weighted sum of R153, read bit by bit. -/
theorem reversedOrderWeighsFromStart : Obligations.ReversedOrderWeighsFromStart := fun s b f h h' =>
  ⟨_, exec_interpretNumReversed b f s, fun k => interpretNumReversed_getLsbD b k h h'⟩

/-- The vector whose only 1 stands at `END` is odd under Natural order and even under Reversed order. -/
theorem interpretNum_orders_differ {x : FieldEntry} (h : x.start.toNat < x.stop.toNat) (h' : x.stop.toNat < 32) :
    interpretNumNatural x (BitVec.twoPow 32 x.stop.toNat) ≠ interpretNumReversed x (BitVec.twoPow 32 x.stop.toNat) := by
  intro heq
  have hnat : (interpretNumNatural x (BitVec.twoPow 32 x.stop.toNat)).getLsbD 0 = true := by
    rw [interpretNumNatural_getLsbD _ 0 (Nat.le_of_lt h) h', BitVec.getLsbD_twoPow]
    simp [h']
  have hrev : (interpretNumReversed x (BitVec.twoPow 32 x.stop.toNat)).getLsbD 0 = false := by
    rw [interpretNumReversed_getLsbD _ 0 (Nat.le_of_lt h) h', BitVec.getLsbD_twoPow]
    have : x.stop.toNat ≠ x.start.toNat := by omega
    simp [this]
  rw [heq, hrev] at hnat
  cases hnat

/-- Settles O21: the two orders read the vector with a 1 at `END` alone as values of different parity. -/
theorem bitOrdersDiffer : Obligations.BitOrdersDiffer := fun s f h h' =>
  ⟨BitVec.twoPow 32 s.d.f[f].stop.toNat, _, _, exec_interpretNumNatural _ f s, exec_interpretNumReversed _ f s,
    interpretNum_orders_differ h h'⟩

/-! ### INTERPRET_ENUM -/

theorem interpretEnum_of_entry {d : Descriptor} {f : FieldIx} {b : BitsVec} {e : EntryIx}
    (h : entryByPattern d f b = some e) : interpretEnum d f b = some d.e[e].value := by
  rw [interpretEnum, h, Option.map_some]

theorem interpretEnum_of_no_entry {d : Descriptor} {f : FieldIx} {b : BitsVec} (h : entryByPattern d f b = none) :
    interpretEnum d f b = none := by
  rw [interpretEnum, h, Option.map_none]

/-- Settles O22: the table look-up finds the first entry whose pattern stands, and none exactly when none stands. -/
theorem enumPatternFirstMatchWins : Obligations.EnumPatternFirstMatchWins := by
  intro s b f h h'
  constructor
  · intro e hstands hfirst
    have hhit := (entryByPattern_eq_some b h h' e).2 ⟨hstands, hfirst⟩
    rw [exec_interpretEnum, interpretEnum_of_entry hhit, yieldStage]
  · intro hno
    have hmiss := (entryByPattern_eq_none b h h').2 hno
    rw [exec_interpretEnum, interpretEnum_of_no_entry hmiss, yieldStage]

/-! ### INTERPRET_STATE -/

/-- Pattern A is tested before pattern B, each through the sampler (R158). -/
theorem interpretState_eq {d : Descriptor} (b : BitsVec) (h : d.stateSeg.pos.toNat + d.stateSeg.pairs ≤ 32) :
    interpretState d b = if StatePatternStands d d.sa b then (true, false)
      else if StatePatternStands d d.sb b then (false, true) else (false, false) := by
  simp only [interpretState, stateMatches_iff _ b h]

/-- Settles O23: the three outcomes of the two tests. -/
theorem stateIsRecognisedThroughSampler : Obligations.StateIsRecognisedThroughSampler := by
  intro s b h
  rw [exec_interpretState, interpretState_eq b h, yieldStage]
  refine ⟨fun ha => ?_, fun ha hb => ?_, fun ha hb => ?_⟩
  · rw [if_pos ha]
  · rw [if_neg ha, if_pos hb]
  · rw [if_neg ha, if_neg hb]

/-! ### INTERPRET -/

/-- The warning is an enabled ENUM field that is reported absent (R150). -/
theorem interpret_wEnum_iff (d : Descriptor) (b : BitsVec) : (interpret d b).wEnum = true ↔
    ∃ f : FieldIx, d.f[f].en = true ∧ d.f[f].kind = .enum ∧ (interpret d b).present.getLsbD f.val = false := by
  simp only [interpret_present]
  rw [interpret, allFields_any]
  refine exists_congr fun f => ?_
  rw [Bool.and_eq_true, Bool.and_eq_true, beq_iff_eq, and_assoc]
  refine and_congr_right fun hen => and_congr_right fun hk => ?_
  rw [interpretField_enum b hen hk, Option.isNone_iff_eq_none, Option.isSome_eq_false_iff, Option.isNone_iff_eq_none]

/-- Settles O24: field by field through `interpretField`, which asks the stage of the field's KIND and of `D.ORDER`. -/
theorem interpretReportsEveryField : Obligations.InterpretReportsEveryField := by
  intro s b
  refine ⟨_, exec_interpret b s, fun f => ⟨fun hen => ?_, fun hen hk ho => ?_, fun hen hk ho => ?_, fun hen hk => ?_⟩,
    fun hst => ?_, fun hst => ?_, interpret_wEnum_iff s.d b⟩
  · rw [interpret_val, interpret_present, interpretField_disabled b hen]
    exact ⟨rfl, rfl⟩
  · rw [interpret_val, interpret_present, interpretField_numeric b hen hk, interpretNum_natural _ b ho]
    exact ⟨rfl, exec_interpretNumNatural b f s⟩
  · rw [interpret_val, interpret_present, interpretField_numeric b hen hk, interpretNum_reversed _ b ho]
    exact ⟨rfl, exec_interpretNumReversed b f s⟩
  · rw [interpret_val, interpret_present, interpretField_enum b hen hk, exec_interpretEnum]
    cases interpretEnum s.d f b with
    | none => exact ⟨(nomatch ·), fun _ => ⟨rfl, rfl⟩⟩
    | some v => exact ⟨fun _ => rfl, (nomatch ·)⟩
  · rw [exec_interpretState, interpret, hst, Bool.true_and, Bool.true_and, yieldStage]
  · rw [interpret, hst, Bool.false_and, Bool.false_and]
    exact ⟨rfl, rfl⟩

/-! ### RENDER -/

theorem render_numeric {d : Descriptor} {f : FieldIx} (fval : Vector Val 4) (o : Option EntryIx)
    (hk : d.f[f].kind = .numeric) : render d fval f o = renderNum d d.f[f] fval[f] := by
  simp only [render, hk]

theorem render_enum_some {d : Descriptor} {f : FieldIx} (fval : Vector Val 4) (e : EntryIx)
    (hk : d.f[f].kind = .enum) : render d fval f (some e) = renderEnum d d.f[f] e := by
  simp only [render, hk]

theorem render_enum_none {d : Descriptor} {f : FieldIx} (fval : Vector Val 4) (hk : d.f[f].kind = .enum) :
    render d fval f none = [] := by
  simp only [render, hk]

/-- Settles O25: a value that fits its field is rendered inside it, and each order places a 1 bit where R160 says. -/
theorem renderNumPlacesOneBits : Obligations.RenderNumPlacesOneBits := fun s f v h hv =>
  ⟨_, exec_renderNum f s v, fun _ hi => renderNum_covers h hv hi,
    fun ho i => mem_renderNum_reversed s.d.f[f] v i ho, fun ho i => mem_renderNum_natural i ho⟩

/-- Settles O26: the rendered indices are those of the pattern's 1 bits, and `D.ORDER` plays no part (R161). -/
theorem renderEnumPlacesPatternBits : Obligations.RenderEnumPlacesPatternBits := fun s f e h h' =>
  ⟨_, exec_renderEnum f s e, fun i => mem_renderEnum e i h h'⟩

/-- Settles O27: RENDER by the field's KIND, and for an ENUM field by whether there is an entry. -/
theorem renderDispatchesOnKind : Obligations.RenderDispatchesOnKind := by
  intro s f e
  refine ⟨renderNum s.d s.d.f[f] s.fval[f], renderEnum s.d s.d.f[f] e, fun hk o => ⟨?_, ?_⟩, fun hk => ⟨?_, ?_, ?_⟩⟩
  · rw [exec_render, render_numeric _ o hk, yieldStage]
  · exact exec_renderNum f s s.fval[f]
  · rw [exec_render, render_enum_some _ e hk, yieldStage]
  · exact exec_renderEnum f s e
  · rw [exec_render, render_enum_none _ hk, yieldStage]

/-! ### What is rendered reads back (R163) -/

/-- Settles O28: the given run is the one RENDER_NUM renders, and `interpretNum_of_rendered` reads it back in the
descriptor's order. -/
theorem numericRunReadsBack : Obligations.NumericRunReadsBack := by
  intro s f v b l h h' hv hrender hb
  obtain rfl : renderNum s.d s.d.f[f] v = l := indices_eq_of_yieldStage rfl hrender
  have hback : interpretNum s.d s.d.f[f] b = v := interpretNum_of_rendered h h' hv hb
  constructor
  · intro ho
    rw [exec_interpretNumNatural, ← interpretNum_natural _ b ho, hback, yieldStage]
  · intro ho
    rw [exec_interpretNumReversed, ← interpretNum_reversed _ b ho, hback, yieldStage]

/-- Settles O29: the given run is the one RENDER_ENUM renders, and no other entry of the field has its pattern. -/
theorem enumPatternReadsBack : Obligations.EnumPatternReadsBack := by
  intro s f e b l h h' hev hef hdistinct hrender hb
  obtain rfl : renderEnum s.d s.d.f[f] e = l := indices_eq_of_yieldStage rfl hrender
  have hne : ∀ g, g ≠ e → s.d.e[g].valid = true → s.d.e[g].field = f →
      ¬ SamePattern s.d.f[f].bits s.d.e[e].pattern s.d.e[g].pattern :=
    fun g hg => hdistinct e g hg.symm hev hef
  rw [exec_interpretEnum, interpretEnum_of_rendered h h' hev hef hne hb, yieldStage]

end Sys2Proof.Machine
end

section
/-!
PROOFS. The frame builder and the scaled view (spec/42_frame_builder.md R181 to R191): which slots each step of BUILD
reaches, the frame of an encoded command slot by slot, and the durations read from it.
-/

namespace Sys2Proof.Machine

/-! ### The buffer BUILD leaves, slot by slot -/

/-- The buffer BUILD leaves for the validator's results `m` (R181). -/
abbrev builtRaw (s : State) (m : Matches) : RawBuf := build s.d s.cmdf s.fval m s.raw

theorem exec_build (m : Matches) (s : State) : exec (.build m) s = .next { s with raw := builtRaw s m } := rfl

theorem exec_scale (i : SlotIx) (s : State) :
    exec (.scale i) s = .next (yieldStage (.duration (scale s i)) s) := rfl

/-- The pairs RENDER yields for visited fields are those step 3 of BUILD sets high (R159, R183). -/
theorem highPair_iff (s : State) (m : Matches) (p : Nat) : HighPair s m p ↔
    ∃ f, supplied s.d s.cmdf f = true ∧ m.unmatched[f] = false ∧ p ∈ render s.d s.fval f m.entry[f] := by
  constructor
  · rintro ⟨f, l, hs, hu, hrender, hp⟩
    obtain rfl := indices_eq_of_yieldStage rfl hrender
    exact ⟨f, (supplied_iff s f).2 hs, hu, hp⟩
  · rintro ⟨f, hs, hu, hp⟩
    exact ⟨f, _, (supplied_iff s f).1 hs, hu, exec_render f s m.entry[f], hp⟩

/-- Every supplied NUMERIC value fits its field (R204). -/
abbrev ValuesFit (s : State) : Prop :=
  ∀ f : FieldIx, Supplied s f → s.d.f[f].kind = .numeric → s.fval[f].toNat < 2 ^ s.d.f[f].bits

/-- A high pair lies in the range of an enabled field, whatever table entry the field is rendered from. -/
theorem HighPair.exists_covers {s : State} {m : Matches} {p : Nat} (h : HighPair s m p) (hv : DescriptorValid s.d)
    (hfit : ValuesFit s) : ∃ f : FieldIx, s.d.f[f].en = true ∧ s.d.f[f].Covers p := by
  obtain ⟨f, hsup, -, hp⟩ := (highPair_iff s m p).1 h
  have hsup := (supplied_iff s f).1 hsup
  obtain ⟨hen, -⟩ := id hsup
  obtain ⟨hle, -, -, hbits⟩ := hv.field hen
  refine ⟨f, hen, ?_⟩
  cases hk : s.d.f[f].kind with
  | numeric =>
    rw [render_numeric _ _ hk] at hp
    exact renderNum_covers hle (hfit f hsup hk) hp
  | enum =>
    cases he : m.entry[f] with
    | none =>
      rw [he, render_enum_none _ hk] at hp
      cases hp
    | some e =>
      rw [he, render_enum_some _ e hk] at hp
      exact renderEnum_covers hle hbits hp

/-- Steps 1 and 2: inside the frame the old buffer is gone (R182, R183, R187). -/
theorem getElem_header_baseline {d : Descriptor} (hv : DescriptorValid d) (raw : RawBuf) {j : Nat} (hj : j < 64)
    (hlt : j < d.rawlen.toNat) :
    (buildHeader d (buildBaseline d raw))[j] = if j / 2 = 0 then d.hdr.half j else d.low.half j := by
  obtain ⟨⟨h2, -, -⟩, -⟩ := hv
  rw [getElem_buildHeader _ _ hj, getElem_buildBaseline _ _ hj, if_pos (by omega : j / 2 < d.rawlen.toNat / 2)]

section
variable {s : State} {m : Matches} {j : Nat} (hv : DescriptorValid s.d) (hj : j < 64)
include hv

/-- Step 5 comes last: nothing replaces the footer (R102, R185). -/
theorem getElem_builtRaw_footer (hlt : j < s.d.rawlen.toNat) (hf : s.d.rawlen.toNat ≤ j + 2) :
    (builtRaw s m)[j] = s.d.ftr.half j := by
  obtain ⟨⟨h2, h4, -⟩, -⟩ := hv
  rw [builtRaw, build, getElem_buildFooter _ hj h2 h4, if_pos ⟨hlt, hf⟩]

/-- Where steps 3 to 5 write nothing, the header and the baseline stay. -/
theorem getElem_builtRaw_of_unwritten (hf : ¬ (j < s.d.rawlen.toNat ∧ s.d.rawlen.toNat ≤ j + 2))
    (hw : FrameSuppressed s.d m ∨ ¬ StatePair s.d (j / 2) ∧ ¬ HighPair s m (j / 2)) :
    (builtRaw s m)[j] = (buildHeader s.d (buildBaseline s.d s.raw))[j] := by
  obtain ⟨⟨h2, h4, -⟩, -⟩ := hv
  rw [builtRaw, build, getElem_buildFooter _ hj h2 h4, if_neg hf]
  split
  · rfl
  · rename_i hns
    rw [suppressed_iff] at hns
    obtain ⟨hst, hhigh⟩ := hw.resolve_left hns
    rw [highPair_iff] at hhigh
    rw [(getElem_buildState s.d s.cmdf _ hj).2 hst, (getElem_buildFields s.d s.cmdf s.fval m _ hj).2 hhigh]

/-- A slot of the frame that only the first two steps write. -/
theorem getElem_builtRaw_plain (hlt : j + 2 < s.d.rawlen.toNat)
    (hw : FrameSuppressed s.d m ∨ ¬ StatePair s.d (j / 2) ∧ ¬ HighPair s m (j / 2)) :
    (builtRaw s m)[j] = if j / 2 = 0 then s.d.hdr.half j else s.d.low.half j := by
  rw [getElem_builtRaw_of_unwritten hv hj (by omega) hw, getElem_header_baseline hv _ hj (by omega)]

section
variable (hs : ¬ FrameSuppressed s.d m) (hlt : j + 2 < s.d.rawlen.toNat)
include hs hlt

theorem getElem_builtRaw_of_not_suppressed : (builtRaw s m)[j] = (buildState s.d s.cmdf
    (buildFields s.d s.cmdf s.fval m (buildHeader s.d (buildBaseline s.d s.raw))))[j] := by
  rw [← suppressed_iff, Bool.not_eq_true] at hs
  exact getElem_build_of_lt (i := ⟨j / 2, by omega⟩) hv hs (by simp only; omega) hj rfl

/-- The state replaces what the fields and the header left (R184). -/
theorem getElem_builtRaw_state (hen : s.d.stateSeg.en = true) {k : Fin 2} (hk : k.val < s.d.stateSeg.pairs)
    (hp : j / 2 = s.d.stateSeg.pos.toNat + k.val) :
    (builtRaw s m)[j] = (if s.cmdf.sa then s.d.sa[k] else s.d.sb[k]).half j := by
  rw [getElem_builtRaw_of_not_suppressed hv hj hs hlt, (getElem_buildState s.d s.cmdf _ hj).1 hen k hk hp,
    selectedState]
  split <;> rfl

/-- A rendered pair outside the state is high, the header's own included (R102, R183). -/
theorem getElem_builtRaw_high (hst : ¬ StatePair s.d (j / 2)) (hhigh : HighPair s m (j / 2)) :
    (builtRaw s m)[j] = s.d.high.half j := by
  rw [highPair_iff] at hhigh
  rw [getElem_builtRaw_of_not_suppressed hv hj hs hlt, (getElem_buildState s.d s.cmdf _ hj).2 hst,
    (getElem_buildFields s.d s.cmdf s.fval m _ hj).1 hhigh]

end

/-- No step reaches the slots from `RAWLEN` up (R181, R187). -/
theorem getElem_builtRaw_of_rawlen_le (hfit : ValuesFit s) (h : s.d.rawlen.toNat ≤ j) :
    (builtRaw s m)[j] = s.raw[j] := by
  have hst : ¬ StatePair s.d (j / 2) := by
    rintro ⟨hen, -, hhi⟩
    obtain ⟨hhalf, -⟩ := hv.state hen
    omega
  have hhigh : ¬ HighPair s m (j / 2) := by
    intro hp
    obtain ⟨f, hen, -, hstop⟩ := hp.exists_covers hv hfit
    obtain ⟨-, hhalf, -⟩ := hv.field hen
    omega
  rw [getElem_builtRaw_of_unwritten hv hj (by omega) (.inr ⟨hst, hhigh⟩)]
  obtain ⟨⟨-, h4, -⟩, -⟩ := hv
  rw [getElem_buildHeader _ _ hj, if_neg (by omega), getElem_buildBaseline _ _ hj, if_neg (by omega)]

/-- Where fields and state start after pair 0, the header stays, suppressed frame or not (R183). -/
theorem getElem_builtRaw_header (hfit : ValuesFit s)
    (hfields : ∀ f : FieldIx, s.d.f[f].en = true → 0 < s.d.f[f].start.toNat)
    (hstate : s.d.stateSeg.en = true → 0 < s.d.stateSeg.pos.toNat) (h0 : j / 2 = 0) (hlt : j + 2 < s.d.rawlen.toNat) :
    (builtRaw s m)[j] = s.d.hdr.half j := by
  have hst : ¬ StatePair s.d (j / 2) := by
    rintro ⟨hen, hlo, -⟩
    have := hstate hen
    omega
  have hhigh : ¬ HighPair s m (j / 2) := by
    intro hp
    obtain ⟨f, hen, hlo, -⟩ := hp.exists_covers hv hfit
    have := hfields f hen
    omega
  rw [getElem_builtRaw_plain hv hj hlt (.inr ⟨hst, hhigh⟩), if_pos h0]

end

/-! ### BUILD -/

/-- Settles O32: one lemma for each kind of slot; the later step wins where two write (R102). -/
theorem buildLaysOutFrame : Obligations.BuildLaysOutFrame := by
  intro s m hv hfit
  refine ⟨_, exec_build m s, fun i => ⟨?beyond, ?footer, fun hlt => ⟨?state, ?high, ?plain⟩⟩⟩
  case beyond => exact getElem_builtRaw_of_rawlen_le hv i.isLt hfit
  case footer => exact getElem_builtRaw_footer hv i.isLt
  case state => exact fun hs hen k hk hp => getElem_builtRaw_state hv i.isLt hs hlt hen hk hp
  case high => exact fun hs hst hhigh => getElem_builtRaw_high hv i.isLt hs hlt hst hhigh
  case plain => exact getElem_builtRaw_plain hv i.isLt hlt

/-- Settles O33: the baseline overwrites the whole frame before anything is read (`build_congr`). -/
theorem frameIsIndependentOfOldBuffer : Obligations.FrameIsIndependentOfOldBuffer := by
  intro s s' m hv hd hc hf
  refine ⟨_, _, exec_build m s, exec_build m s', fun i hi => ?_⟩
  simp only [builtRaw, hd, hc, hf]
  exact build_congr hv (fun _ _ => rfl) m s'.raw s.raw i.isLt hi

/-! ### ENCODE -/

/-- VALIDATE lets no value pass that does not fit its field (spec/43_validator.md R204). -/
theorem CommandAccepted.valuesFit {s : State} (ha : CommandAccepted s) : ValuesFit s := by
  obtain ⟨-, -, hrange, -⟩ := ha
  intro f hsup hk
  by_contra hfit
  exact hrange f ⟨hsup, hk, .inr (.inr (by omega))⟩

/-- An accepted command with an unmatched value is encoded with the warning (spec/43_validator.md R206). -/
theorem execEncode_of_unmatched {s : State} {f : FieldIx} (hr : Ready s) (ha : CommandAccepted s)
    (hu : EnumUnmatched s f) :
    execEncode s = .next (commitEncode { found := enumMatches s.d s.cmdf s.fval, wEnum := true } s) := by
  rcases execEncode_cases s with ⟨hn, -⟩ | ⟨r, -, hj, -⟩ | ⟨w, -, -, hw, -, e⟩
  · exact absurd hr hn
  · exact absurd hj (ha.not_rejected r)
  · rwa [hw.2 ⟨f, hu⟩] at e

/-- Settles O34: the mark of the unmatched value suppresses the frame, so only the first two steps and the footer
write. -/
theorem unmatchedValueSuppressesFrame : Obligations.UnmatchedValueSuppressesFrame := by
  intro s f hr ha hscope hu
  refine ⟨_, execEncode_of_unmatched hr ha hu, rfl, fun i hi => ?_⟩
  have hs : FrameSuppressed s.d (enumMatches s.d s.cmdf s.fval) := by
    refine ⟨hscope, f, ?_⟩
    rwa [enumMatches_unmatched, unmatchedEnum_iff]
  rw [commitEncode_raw]
  split
  · exact getElem_builtRaw_footer hr.2 i.isLt hi ‹_›
  · exact getElem_builtRaw_plain hr.2 i.isLt (by omega) (.inl hs)

/-! ### The scaled view -/

/-- Settles O35: a product of 8 and 16 bits fits 24 (`scale_toNat`), and the stage only yields it. -/
theorem scaleIsExactProduct : Obligations.ScaleIsExactProduct := fun s i =>
  ⟨scale s i, exec_scale i s, scale_toNat s i⟩

/-- Settles O37: slots 0 and 1 hold the header, 50 and 51 the footer, and `TXDUR` scales each of them (O36). -/
theorem contactSensorFraming : Obligations.ContactSensorFraming := by
  intro s hr ha hlen hhdr hftr hfields hstate
  obtain ⟨w, henc⟩ := execEncode_of_accepted hr ha
  have hlen : s.d.rawlen.toNat = 52 := by rw [hlen]; rfl
  have hheader : ∀ j (hj : j < 64), j / 2 = 0 →
      (builtRaw s (enumMatches s.d s.cmdf s.fval))[j] = (⟨21, 2⟩ : Pair).half j := fun j hj h0 => by
    rw [getElem_builtRaw_header hr.2 hj ha.valuesFit hfields hstate h0 (by omega), hhdr]
  have hfooter : ∀ j (hj : j < 64), 50 ≤ j → j < 52 →
      (builtRaw s (enumMatches s.d s.cmdf s.fval))[j] = (⟨2, 34⟩ : Pair).half j := fun j hj h50 h52 => by
    rw [getElem_builtRaw_footer hr.2 hj (by omega) (by omega), hftr]
  have hscaled : ∀ (i : SlotIx) (c : Code), (builtRaw s (enumMatches s.d s.cmdf s.fval))[i] = c →
      (regRead (commitEncode { found := enumMatches s.d s.cmdf s.fval, wEnum := w } s) (0x300 + 4 * i.val)).toNat =
        c.toNat * s.d.tu.toNat := by
    rintro i _ rfl
    exact (txdurReadsScaledCode _ i).1
  exact ⟨_, henc, hscaled 0 21 (hheader 0 (by decide) rfl), hscaled 1 2 (hheader 1 (by decide) rfl),
    hscaled 50 2 (hfooter 50 (by decide) (by decide) (by decide)),
    hscaled 51 34 (hfooter 51 (by decide) (by decide) (by decide))⟩

end Sys2Proof.Machine
end

section
/-!
PROOFS. The validator (spec/43_validator.md): the first failing rule is what VALIDATE raises, so there is one at most;
and what VALIDATE and ENCODE answer on an accepted and on a rejected command.
-/

namespace Sys2Proof.Machine

/-! ### The first failure -/

/-- The validator raises the first failure in the order of R249 (R200). -/
theorem CommandRejected.validate_eq {s : State} {r : Raise} (ho : RangesOrdered s.d) (h : CommandRejected s r) :
    validate s.d s.cmdf s.fval = .error r := by
  cases h with
  | fieldMissing f hf => simp only [validate, (find_missing_eq_some s f).2 hf]
  | stateMissing hmiss hstate =>
    simp only [validate, (find_missing_eq_none s).2 hmiss, (stateMissing_iff s).2 hstate, if_true]
  | valueRejected f hmiss hstate hf =>
    rw [← stateMissing_iff] at hstate
    simp only [validate, (find_missing_eq_none s).2 hmiss, if_neg hstate, (find_outOfRange_eq_some ho f).2 hf]
  | stateAmbiguous hmiss hrange hamb =>
    have hstate : ¬ StateMissing s := by
      rintro ⟨-, hsa, -⟩
      obtain ⟨-, hsa', -⟩ := hamb
      exact Bool.false_ne_true (hsa.symm.trans hsa')
    rw [← stateMissing_iff] at hstate
    simp only [validate, (find_missing_eq_none s).2 hmiss, if_neg hstate, (find_outOfRange_eq_none ho).2 hrange,
      (stateAmbiguous_iff s).2 hamb, if_true]
  | enumUnmatched f hmiss hstate hrange hamb hstrict hf =>
    rw [← stateMissing_iff] at hstate
    rw [← stateAmbiguous_iff] at hamb
    simp only [validate, (find_missing_eq_none s).2 hmiss, if_neg hstate, (find_outOfRange_eq_none ho).2 hrange,
      if_neg hamb, validateEnums, (find_unmatched_eq_some s f).2 hf, hstrict, if_true]

/-- A command has at most one first failure: the one the validator raises. -/
theorem CommandRejected.unique {s : State} {r r' : Raise} (ho : RangesOrdered s.d) (h : CommandRejected s r)
    (h' : CommandRejected s r') : r' = r :=
  Except.error.inj ((h'.validate_eq ho).symm.trans (h.validate_eq ho))

/-- No rule raises OK. -/
theorem CommandRejected.code_ne_ok {s : State} {r : Raise} (h : CommandRejected s r) : r.code ≠ .ok := by
  cases h <;> exact nofun

/-- An accepted command passes with the table look-ups of R206. -/
theorem CommandAccepted.validate_eq {s : State} (ho : RangesOrdered s.d) (ha : CommandAccepted s) :
    ∃ w : Bool, (w = true ↔ ∃ f, EnumUnmatched s f) ∧
      validate s.d s.cmdf s.fval = .ok { found := enumMatches s.d s.cmdf s.fval, wEnum := w } := by
  rcases validate_cases ho with ⟨r, hj, -⟩ | ⟨-, hv⟩
  · exact absurd hj (ha.not_rejected r)
  · exact hv

/-! ### VALIDATE -/

theorem exec_validate_of_ok {s : State} {v : Validated} (h : validate s.d s.cmdf s.fval = .ok v) :
    exec .validate s = .next (yieldStage (.validated v) s) := by
  change execValidate s = _
  rw [execValidate, h]

theorem exec_validate_of_error {s : State} {r : Raise} (h : validate s.d s.cmdf s.fval = .error r) :
    exec .validate s = .next (raiseStage r s) := by
  change execValidate s = _
  rw [execValidate, h]

/-- Settles O30: the results are those of `enumMatches`, whose look-up is the first entry with the value. -/
theorem validateAcceptsCommand : Obligations.ValidateAcceptsCommand := by
  intro s ha ho
  obtain ⟨w, hw, hv⟩ := ha.validate_eq ho
  refine ⟨_, exec_validate_of_ok hv, fun f => ?unmatched, fun f e hs hk => ?entry, hw⟩
  case unmatched => rw [enumMatches_unmatched, unmatchedEnum_iff]
  case entry => rw [enumMatches_entry, keptEntry_eq hs hk, entryByValue_eq_some]

/-- Settles O31: the first failure is what the validator raises, and raising writes `STATUS` only (R244). -/
theorem validateRaisesFirstFailure : Obligations.ValidateRaisesFirstFailure := by
  intro s r ho hj
  rw [exec_validate_of_error (hj.validate_eq ho), raiseStage, yieldStage, raise]

/-! ### ENCODE -/

/-- Settles O15: ENCODE raises what the validator raises, and that is the only first failure. -/
theorem commandsHaveOneVerdict : Obligations.CommandsHaveOneVerdict := by
  intro s hr
  have ho := hr.2.rangesOrdered
  rcases execEncode_cases s with ⟨hn, -⟩ | ⟨r, -, hj, henc⟩ | ⟨w, -, ha, -, -, henc⟩
  · exact absurd hr hn
  · have hna : ¬ CommandAccepted s := fun ha => ha.not_rejected r hj
    exact ⟨_, henc, iff_of_false hj.code_ne_ok hna, fun ha => absurd ha hna,
      fun _ => ⟨r, hj, fun _ hj' => hj.unique ho hj', rfl⟩⟩
  · exact ⟨_, henc, iff_of_true rfl ha, fun _ => ha.not_rejected, fun hna => absurd ha hna⟩

end Sys2Proof.Machine
end

section
/-!
PROOFS. The commands (spec/44_commands.md): NOP, DECODE as EXTRACT then INTERPRET, ENCODE as VALIDATE then BUILD, what each
leaves on an error, and the round trip under `RT_SAFE`.
-/

namespace Sys2Proof.Machine

/-! ### NOP -/

/-- Settles O6: the meaning of NOP answers the state it is given, without a look at the descriptor. -/
theorem nopChangesNothing : Obligations.NopChangesNothing := fun _ => rfl

/-! ### DECODE -/

/-- Without a locked, valid descriptor DECODE fails before it reads the length (R223). -/
theorem execDecode_of_not_ready {s : State} (hn : ¬ Ready s) :
    execDecode s = .next (raise { code := .badDescriptor, field := .noField } (unspecifyCommand s)) := by
  rcases execDecode_cases s with ⟨-, e⟩ | ⟨hr, -, -⟩ | ⟨hr, -, -⟩
  · exact e
  · exact absurd hr hn
  · exact absurd hr hn

/-- Settles O8: the vector EXTRACT yields is the one INTERPRET is given, and its result is what DECODE commits. -/
theorem decodeIsExtractThenInterpret : Obligations.DecodeIsExtractThenInterpret := fun s hr hx =>
  ⟨sampleBits s.d s.raw, interpret s.d (sampleBits s.d s.raw), exec_extract_of_length hx, exec_interpret _ s,
    execDecode_of_length hr hx⟩

/-- A valid descriptor declares no more bits than `BITS` has (R48 (a) and (b)). -/
theorem DescriptorValid.bitlen_le {d : Descriptor} (h : DescriptorValid d) : d.bitlen.toNat ≤ 32 := by
  obtain ⟨⟨-, -, h64⟩, hhalf, -⟩ := h
  omega

/-- Settles O9: `BITS` is the vector of the samples, and `BITLEN` does not reach beyond it. -/
theorem decodeWritesSampledBits : Obligations.DecodeWritesSampledBits := by
  intro s hr hx
  refine ⟨_, execDecode_of_length hr hx, rfl, fun i => ?_⟩
  have h32 : i < s.d.bitlen.toNat → i < 32 := fun hi => Nat.lt_of_lt_of_le hi hr.2.bitlen_le
  rw [commitDecode_bits, sampleBits_getLsbD_iff]
  exact and_iff_right_of_imp fun h => h32 h.1

/-- Settles O10: `BITS`, `FVAL` and `CMDF` take the free values of the failed DECODE, and raising writes `STATUS` only. -/
theorem decodeNeedsDescriptor : Obligations.DecodeNeedsDescriptor := fun _ hn =>
  ⟨_, _, _, _, execDecode_of_not_ready hn⟩

/-! ### ENCODE -/

/-- Without a locked, valid descriptor ENCODE fails before it validates (R223). -/
theorem execEncode_of_not_ready {s : State} (hn : ¬ Ready s) :
    execEncode s = .next (raise { code := .badDescriptor, field := .noField } (unspecifyBits s)) := by
  rcases execEncode_cases s with ⟨-, e⟩ | ⟨-, hr, -, -⟩ | ⟨-, hr, -, -, -, -⟩
  · exact e
  · exact absurd hr hn
  · exact absurd hr hn

/-- ENCODE of a rejected command raises the command's one first failure (R222, R249). -/
theorem execEncode_of_rejected {s : State} {r : Raise} (hr : Ready s) (hj : CommandRejected s r) :
    execEncode s = .next (raise r (unspecifyBits s)) := by
  rcases execEncode_cases s with ⟨hn, -⟩ | ⟨r', -, hj', e⟩ | ⟨-, -, ha, -, -, -⟩
  · exact absurd hr hn
  · rwa [hj.unique hr.2.rangesOrdered hj'] at e
  · exact absurd hj (ha.not_rejected r)

/-- ENCODE of an accepted command commits what VALIDATE found (R222). -/
theorem execEncode_of_validate_ok {s : State} (hr : Ready s) (ha : CommandAccepted s) :
    ∃ v, validate s.d s.cmdf s.fval = .ok v ∧ execEncode s = .next (commitEncode v s) := by
  rcases execEncode_cases s with ⟨hn, -⟩ | ⟨r, -, hj, -⟩ | ⟨w, -, -, -, hv, e⟩
  · exact absurd hr hn
  · exact absurd hj (ha.not_rejected r)
  · exact ⟨_, hv, e⟩

/-- Settles O12: the results VALIDATE yields are those BUILD is given, and the buffer it leaves is the one ENCODE commits. -/
theorem encodeIsValidateThenBuild : Obligations.EncodeIsValidateThenBuild := by
  intro s hr ha
  obtain ⟨v, hv, henc⟩ := execEncode_of_validate_ok hr ha
  exact ⟨v, builtRaw s v.found, _, _, exec_validate_of_ok hv, exec_build v.found s, henc⟩

/-- Settles O13: `BITS` takes the free value of an ENCODE, and raising writes `STATUS` only. -/
theorem encodeNeedsDescriptor : Obligations.EncodeNeedsDescriptor := fun _ hn =>
  ⟨_, _, execEncode_of_not_ready hn⟩

/-- Settles O14: the command's first failure is what ENCODE raises; `BITS` takes its free value, and no slot is written. -/
theorem encodeReportsFirstFailure : Obligations.EncodeReportsFirstFailure := fun _ _ hr hj =>
  ⟨_, _, execEncode_of_rejected hr hj⟩

/-! ### The round trip -/

/-- Settles O38: a round-trip-safe descriptor is a round-trip layout with R49 (e) besides, and a command of the law brings
the fit of its values along, so the round trip on the layout alone (O39) applies. -/
theorem encodeThenDecodeReturnsCommand : Obligations.EncodeThenDecodeReturnsCommand := by
  rintro s hlock ⟨hlayout, -⟩ hc
  exact roundTripWithoutMaximumBound s hlock hlayout hc

end Sys2Proof.Machine
end

section
/-!
PROOFS. Completion and idling (spec/70_reset_and_hazards.md R279, R281): every instruction answers a next state and leaves
the descriptor, the lock, the pending events and the returned reads as they were; so every command written to `CMD` is done
in one step. With no access pending nothing happens.
-/

namespace Sys2Proof.Machine

/-! ### What every instruction keeps -/

/-- `t` has the descriptor, the lock, the pending events and the returned reads of `s`. -/
structure SameHostSide (s t : State) : Prop where
  d : t.d = s.d
  lock : t.lock = s.lock
  host : t.host = s.host
  reads : t.reads = s.reads

theorem sameHostSide_yieldStage (o : StageOut) (s : State) : SameHostSide s (yieldStage o s) := ⟨rfl, rfl, rfl, rfl⟩

theorem sameHostSide_raise (r : Raise) (s : State) : SameHostSide s (raise r s) := ⟨rfl, rfl, rfl, rfl⟩

theorem sameHostSide_raiseStage (r : Raise) (s : State) : SameHostSide s (raiseStage r s) := ⟨rfl, rfl, rfl, rfl⟩

/-- DECODE succeeds, or raises after its outputs became unspecified (R221, R228). -/
theorem execDecode_completes (s : State) : ∃ t, execDecode s = .next t ∧ SameHostSide s t := by
  rcases execDecode_cases s with ⟨-, e⟩ | ⟨-, -, e⟩ | ⟨-, -, e⟩ <;> exact ⟨_, e, rfl, rfl, rfl, rfl⟩

/-- ENCODE succeeds, or raises after `BITS` became unspecified (R222, R228). -/
theorem execEncode_completes (s : State) : ∃ t, execEncode s = .next t ∧ SameHostSide s t := by
  rcases execEncode_cases s with ⟨-, e⟩ | ⟨r, -, -, e⟩ | ⟨w, -, -, -, -, e⟩ <;> exact ⟨_, e, rfl, rfl, rfl, rfl⟩

/-- EXTRACT yields the samples, or raises on a wrong length (R130). -/
theorem exec_extract_completes (s : State) : ∃ t, exec .extract s = .next t ∧ SameHostSide s t := by
  by_cases h : s.rxlen = s.d.rawlen
  · exact ⟨_, exec_extract_of_length h, sameHostSide_yieldStage _ s⟩
  · exact ⟨_, exec_extract_of_wrong_length h, sameHostSide_raiseStage _ s⟩

/-- VALIDATE yields its results, or raises the first failure (R200). -/
theorem exec_validate_completes (s : State) : ∃ t, exec .validate s = .next t ∧ SameHostSide s t := by
  cases h : validate s.d s.cmdf s.fval with
  | ok v => exact ⟨_, exec_validate_of_ok h, sameHostSide_yieldStage _ s⟩
  | error r => exact ⟨_, exec_validate_of_error h, sameHostSide_raiseStage _ s⟩

/-- Of the stages EXTRACT and VALIDATE alone can raise; BUILD writes the raw buffer, and the others yield their result. -/
theorem exec_completes (i : Instr) (s : State) : ∃ t, exec i s = .next t ∧ SameHostSide s t := by
  cases i with
  | nop => exact ⟨s, rfl, rfl, rfl, rfl, rfl⟩
  | decode => exact execDecode_completes s
  | encode => exact execEncode_completes s
  | reserved w => exact ⟨_, exec_reserved w s, sameHostSide_raise _ s⟩
  | extract => exact exec_extract_completes s
  | validate => exact exec_validate_completes s
  | build m => exact ⟨_, exec_build m s, rfl, rfl, rfl, rfl⟩
  | sample | interpret | interpretNumNatural | interpretNumReversed | interpretEnum | interpretState | render | renderNum
    | renderEnum | scale => exact ⟨_, rfl, sameHostSide_yieldStage _ s⟩

/-- Settles O57: one instruction at a time. -/
theorem instructionsKeepDescriptorAndLock : Obligations.InstructionsKeepDescriptorAndLock := by
  intro i s
  obtain ⟨t, ht, hd, hlock, hhost, hreads⟩ := exec_completes i s
  exact ⟨t, ht, hd, hlock, hhost, hreads⟩

/-! ### The step -/

/-- Settles O60: the step runs the decoded command with the event taken off the list, and the command leaves the list as
it is. -/
theorem everyCommandCompletes : Obligations.EveryCommandCompletes := by
  intro s w rest hh
  obtain ⟨hstep, -⟩ := stepRunsDecodedCommand s w rest
  obtain ⟨t, ht, -, -, hhost, -⟩ := exec_completes (decodeWord w) { s with host := rest }
  exact ⟨t, (hstep hh).trans ht, hhost⟩

/-- Settles O53: without an event the step answers the state it is given. -/
theorem idleWithoutAccess : Obligations.IdleWithoutAccess := by
  intro s hh
  rw [step, hostStep, hh]

end Sys2Proof.Machine
end
